-- ==== Sys2Proof/Word.lean ====
section
/-! DEFINITION. The unsigned widths of the spec (00_scope.md R10, R11).

A `uW` value is a `BitVec W`: its `+` and `*` are modulo `2^W`, `>>>` fills with zeros and `<<<`
truncates, which is the arithmetic of R11. Nothing in the spec is signed. -/

namespace Sys2Proof

/-- `u8`: one byte of a byte string (R13). -/
abbrev Byte := BitVec 8

/-- `u32`: a seed, a hash word of X86_32 and X86_128, an input word of those variants. -/
abbrev U32 := BitVec 32

/-- `u64`: LEN, a hash word of X64_128, an input word of that variant. -/
abbrev U64 := BitVec 64

/-- `u128`: the DATA of a response (30_encoding.md R80). -/
abbrev U128 := BitVec 128

/-- `CMD`: one command, a single 64-bit word (30_encoding.md R70, R71). -/
abbrev CommandWord := BitVec 64

end Sys2Proof
end

