-- ==== Sys2Proof/Config.lean ====
section
/-! DEFINITION. What selects an engine's behaviour, and the one parameter the spec leaves OPEN.

The variant is the engine's only configuration (00_scope.md R2): there is no other option, mode or
build parameter. Its numeric parameters B, W, NW and DL are in Machine/Operands.lean. -/

namespace Sys2Proof

/-- The three algorithm variants (00_scope.md R2, 10_state.md R22), the values of VAR. -/
inductive Variant where
  | x86_32
  | x86_128
  | x64_128
  deriving DecidableEq, Repr

/-- `CMD_WIRE_FORMAT`, command half: the bits of a command word on a physical channel, in order.
OPEN (R9; 92_eei_decisions.md D22; 93 O20; log entry 7). Nothing in the machine reads it: words are
values. -/
opaque Config.commandWire : CommandWord → List Bool

/-- `CMD_WIRE_FORMAT`, response half: the bits of a response (4-bit status code, 128-bit data) on a
physical channel, in order. OPEN (R9; D22; O20). Nothing in the machine reads it. -/
opaque Config.responseWire : BitVec 4 → U128 → List Bool

end Sys2Proof
end

