-- ==== Sys2Proof/Syntax.lean ====
section
/-! DEFINITION. The commands as syntax, one constructor per row of spec/opcode_table.json, and the
assembler's source lines. -/

namespace Sys2Proof

/-- The four operations, the meanings of the OP field (30_encoding.md R72). -/
inductive Operation where
  | init
  | reset
  | update
  | finalize
  deriving DecidableEq, Repr

/-- A command, its operands extracted from the word (30_encoding.md R77). One constructor per row of
the opcode table; every seed and every byte value is legal (R73, 60_exceptions.md R211), so every
term is an instruction some legal word encodes. -/
inductive Instr where
  | initX86_32 (seed : U32)
  | initX86_128 (seed : U32)
  | initX64_128 (seed : U32)
  | reset (seed : U32)
  | update0
  | update1 (b0 : Byte)
  | update2 (b0 b1 : Byte)
  | update3 (b0 b1 b2 : Byte)
  | update4 (b0 b1 b2 b3 : Byte)
  | finalize
  deriving DecidableEq, Repr

/-- One line of assembler source (30_encoding.md R83 to R85), before its numbers are checked: a seed
and an UPDATE byte are numbers as written. The byte string of a pseudo-instruction is already a
list of bytes, because its text form can write no other value. -/
inductive SourceLine where
  | init (v : Variant) (seed : Nat)
  | reset (seed : Nat)
  | update (bytes : List Nat)
  | finalize
  | updates (bytes : List Byte)
  | hash (v : Variant) (seed : Nat) (bytes : List Byte)
  deriving DecidableEq, Repr

end Sys2Proof
end

