-- ==== Sys2Proof/Machine/State.lean ====
section
/-! DEFINITION. The machine's state (10_state.md R20 to R37), its two channels (20_memory.md R51),
and the reasons a step can stop. -/

namespace Sys2Proof.Machine

/-- PHASE, the life-cycle register (R21). Its reserved code 3 is "never held", so it has no
constructor (log entry 5). -/
inductive Phase where
  | unconfigured
  | active
  | finalized
  deriving DecidableEq, Repr

/-- The hash words of X86_128: four u32 (R23). -/
structure X86Words where
  h1 : U32
  h2 : U32
  h3 : U32
  h4 : U32
  deriving DecidableEq, Repr

/-- The hash words of X64_128: two u64 (R23). -/
structure X64Words where
  h1 : U64
  h2 : U64
  deriving DecidableEq, Repr

/-- HS, the hash words: a value tagged by the variant that holds exactly its words (R23). -/
inductive HashState where
  | x86_32 (h1 : U32)
  | x86_128 (words : X86Words)
  | x64_128 (words : X64Words)
  deriving DecidableEq, Repr

/-- STATUS, the four codes a response can carry (30_encoding.md R81). Codes 4 to 15 are "never
produced", so they have no constructor (log entry 5). -/
inductive Status where
  | ok
  | illegal
  | unconfigured
  | finalized
  deriving DecidableEq, Repr

/-- A response `RSP = {STATUS, DATA}` (30_encoding.md R80). -/
structure Response where
  status : Status
  data : U128
  deriving DecidableEq, Repr

/-- The engine state `S = (PHASE, VAR, HS, LEN, CARRY)` (R20). `none` is the spec's "holds no value"
(R34; log entry 4). -/
structure Engine where
  phase : Phase
  var : Option Variant
  hs : Option HashState
  len : Option U64
  carry : Option (List Byte)
  deriving DecidableEq, Repr

/-- The machine: the engine and its two channels, "and nothing else" (20_memory.md R51). -/
structure State where
  /-- The engine state of R20. -/
  engine : Engine
  /-- The command channel: words delivered and not yet taken, oldest first (R60; log entry 1). -/
  commands : List CommandWord
  /-- The response channel: responses the host has not taken, oldest first (R60; log entry 3). -/
  responses : List Response
  deriving DecidableEq, Repr

/-- The state elements that may hold no value (R34). -/
inductive StateElement where
  | var
  | hs
  | len
  | carry
  deriving DecidableEq, Repr

/-- Why a step stops the model. Neither reason is an event of the hardware: both are the model's own
code meeting a state that no command sequence reaches (Safety.lean). The hardware's errors are
response statuses. -/
inductive Fault where
  /-- A command read an element that holds no value. Raised by RESET (VAR), UPDATE and FINALIZE
  (VAR, HS, LEN, CARRY). Required by 70_reset_and_hazards.md R241 and 93 O11, O12. Safe. -/
  | noValue (element : StateElement)
  /-- The tag of HS differs from VAR, which R23 excludes. Raised by UPDATE and FINALIZE. Safe. -/
  | hashTagMismatch
  deriving DecidableEq, Repr

/-- Why a step has no meaning for a command. -/
inductive Refusal where
  /-- The command has no meaning in the model yet. Raised only by an arm of `exec`; no arm raises
  it. Safe. -/
  | notModelled (mnemonic : String)
  deriving DecidableEq, Repr

/-- The power-on state of the engine (R37). -/
def Engine.powerOn : Engine :=
  { phase := .unconfigured, var := none, hs := none, len := none, carry := none }

/-- The machine right after power-on, its one hardware reset event (70_reset_and_hazards.md R240,
R241): the engine of R37, no response pending, no command delivered yet (log entry 1). -/
def State.reset : State :=
  { engine := Engine.powerOn, commands := [], responses := [] }

end Sys2Proof.Machine
end

