-- ==== Sys2Proof/Machine/Channels.lean ====
section
/-! DEFINITION. What the outside world does to the machine between steps (20_memory.md R51, R60;
60_exceptions.md R224; 70_reset_and_hazards.md R240), and taking a word off the command channel. -/

namespace Sys2Proof.Machine

/-- The host sends command words: they join the end of the command channel, in order. -/
def State.deliver (s : State) (cmds : List CommandWord) : State :=
  { s with commands := s.commands ++ cmds }

/-- The engine takes the next word: the rest of the channel stays. -/
def State.withCommands (s : State) (rest : List CommandWord) : State :=
  { s with commands := rest }

/-- The host takes the oldest response, if there is one. -/
def State.takeResponse (s : State) : Option Response × State :=
  match s.responses with
  | [] => (none, s)
  | r :: rest => (some r, { s with responses := rest })

/-- Power-on, from whatever state the machine was in (R224, R240; log entry 10). -/
def State.powerOn (_before : State) : State :=
  State.reset

/-- The state with `cmd` as the next word the engine takes. -/
def State.withNextCommand (s : State) (cmd : CommandWord) : State :=
  { s with commands := cmd :: s.commands }

end Sys2Proof.Machine
end

