-- ==== Sys2Proof/WellFormed.lean ====
section
/-! DEFINITION. What a command word and an assembler line must satisfy.

A term of `Instr` needs no check: its operand types hold exactly the values its encoding admits.
The checks of this machine are on the two things that can be ill formed: a 64-bit word
(30_encoding.md R78) and a line of assembler source (R83). -/

namespace Sys2Proof

/-- `CMD[59:36] = 0`: the RSV field is zero in every command (R70). -/
def reservedBitsZero (cmd : CommandWord) : Bool :=
  cmd.extractLsb 59 36 == 0

/-- INIT: the variant code is 0, 1 or 2; every seed is legal (R73). -/
def initFieldsLegal (cmd : CommandWord) : Bool :=
  decide ((cmd.extractLsb 35 32).toNat ≤ 2)

/-- RESET: ARG is 0; every seed is legal (R74). -/
def resetFieldsLegal (cmd : CommandWord) : Bool :=
  cmd.extractLsb 35 32 == 0

/-- UPDATE: the byte count N is at most 4, and the unused bits `DATA[31:8N]` are zero when N < 4
(R75). -/
def updateFieldsLegal (cmd : CommandWord) : Bool :=
  let n := (cmd.extractLsb 35 32).toNat
  decide (n ≤ 4) && (n == 4 || cmd.extractLsb 31 0 >>> (8 * n) == 0)

/-- FINALIZE: ARG and DATA are both 0 (R76). -/
def finalizeFieldsLegal (cmd : CommandWord) : Bool :=
  cmd.extractLsb 35 0 == 0

/-- The legality predicate `legal(CMD)` of R78. -/
def legal (cmd : CommandWord) : Bool :=
  reservedBitsZero cmd &&
    match (cmd.extractLsb 63 60).toNat with
    | 1 => initFieldsLegal cmd
    | 2 => resetFieldsLegal cmd
    | 3 => updateFieldsLegal cmd
    | 4 => finalizeFieldsLegal cmd
    | _ => false

/-- A seed as written fits 32 bits: "A seed must lie in 0 to 2^32 − 1" (R83). -/
def seedInRange (seed : Nat) : Bool :=
  decide (seed < 2 ^ 32)

/-- UPDATE's operands as written: at most four, each in 0 to 255 (R83). -/
def updateOperandsInRange (bytes : List Nat) : Bool :=
  decide (bytes.length ≤ 4) && bytes.all (fun b => decide (b < 256))

/-- The lines the assembler accepts: "The assembler rejects anything else; it never truncates"
(R83). -/
def SourceLine.wellFormed : SourceLine → Bool
  | .init _ seed => seedInRange seed
  | .reset seed => seedInRange seed
  | .update bytes => updateOperandsInRange bytes
  | .finalize => true
  | .updates _ => true
  | .hash _ seed _ => seedInRange seed

end Sys2Proof
end

