-- ==== Sys2Proof/Decode.lean ====
section
/-! DEFINITION. From a 64-bit command word to a command and back (30_encoding.md R70 to R79).

The word is a value: how it travels on a bus is the OPEN parameter `CMD_WIRE_FORMAT` (R51), so the
decoder takes no bytes and no byte order. -/

namespace Sys2Proof

/-- `OP = CMD[63:60]` (R70). -/
def opField (cmd : CommandWord) : BitVec 4 := cmd.extractLsb' 60 4

/-- `RSV = CMD[59:36]` (R70). -/
def rsvField (cmd : CommandWord) : BitVec 24 := cmd.extractLsb' 36 24

/-- `ARG = CMD[35:32]` (R70). -/
def argField (cmd : CommandWord) : BitVec 4 := cmd.extractLsb' 32 4

/-- `DATA = CMD[31:0]` (R70). -/
def dataField (cmd : CommandWord) : U32 := cmd.extractLsb' 0 32

/-- Payload byte k of an UPDATE, `DATA[8k+7:8k]` (R75). -/
def payloadByte (data : U32) (k : Nat) : Byte := data.extractLsb' (8 * k) 8

/-- Why a word is not a command. All of these are the one status `E_ILLEGAL`: the response records
nothing but the status (60_exceptions.md R210). -/
inductive DecodeError where
  /-- OP 0x0 or 0x5 to 0xF (R72). -/
  | reservedOp
  /-- A nonzero RSV bit (R70). -/
  | reservedBits
  /-- INIT with a variant code 3 to 15 (R73). -/
  | reservedVariant
  /-- RESET or FINALIZE with ARG nonzero (R74, R76). -/
  | argNotZero
  /-- UPDATE with a byte count 5 to 15 (R75). -/
  | reservedByteCount
  /-- UPDATE with a set bit in `DATA[31:8N]` (R75). -/
  | unusedPayloadBits
  /-- FINALIZE with DATA nonzero (R76). -/
  | dataNotZero
  deriving DecidableEq, Repr

/-- INIT's fields (R73, R77). -/
def decodeInit (arg : BitVec 4) (data : U32) : Except DecodeError Instr :=
  match arg.toNat with
  | 0 => .ok (.initX86_32 data)
  | 1 => .ok (.initX86_128 data)
  | 2 => .ok (.initX64_128 data)
  | _ => .error .reservedVariant

/-- RESET's fields (R74, R77). -/
def decodeReset (arg : BitVec 4) (data : U32) : Except DecodeError Instr :=
  if arg = 0 then .ok (.reset data) else .error .argNotZero

/-- UPDATE's fields (R75, R77): byte 0 of the payload is the lowest byte of DATA. -/
def decodeUpdate (arg : BitVec 4) (data : U32) : Except DecodeError Instr :=
  match arg.toNat with
  | 0 => if data = 0 then .ok .update0 else .error .unusedPayloadBits
  | 1 => if data >>> 8 = 0 then .ok (.update1 (payloadByte data 0)) else .error .unusedPayloadBits
  | 2 =>
    if data >>> 16 = 0 then .ok (.update2 (payloadByte data 0) (payloadByte data 1))
    else .error .unusedPayloadBits
  | 3 =>
    if data >>> 24 = 0 then
      .ok (.update3 (payloadByte data 0) (payloadByte data 1) (payloadByte data 2))
    else .error .unusedPayloadBits
  | 4 =>
    .ok (.update4 (payloadByte data 0) (payloadByte data 1) (payloadByte data 2)
      (payloadByte data 3))
  | _ => .error .reservedByteCount

/-- FINALIZE's fields (R76). -/
def decodeFinalize (arg : BitVec 4) (data : U32) : Except DecodeError Instr :=
  if arg ≠ 0 then .error .argNotZero
  else if data ≠ 0 then .error .dataNotZero
  else .ok .finalize

/-- The decoder, total on every word. OP selects by R72; a reserved encoding is never executed as a
no-op (R79). -/
def decode (cmd : CommandWord) : Except DecodeError Instr :=
  if rsvField cmd ≠ 0 then .error .reservedBits
  else
    match (opField cmd).toNat with
    | 1 => decodeInit (argField cmd) (dataField cmd)
    | 2 => decodeReset (argField cmd) (dataField cmd)
    | 3 => decodeUpdate (argField cmd) (dataField cmd)
    | 4 => decodeFinalize (argField cmd) (dataField cmd)
    | _ => .error .reservedOp

/-- The word with the given OP, ARG and DATA, and RSV zero (R70). -/
def packCommand (op arg : BitVec 4) (data : U32) : CommandWord :=
  op ++ 0#24 ++ arg ++ data

/-- The DATA field with payload bytes b0 (lowest) to b3 (R75). -/
def packPayload (b0 b1 b2 b3 : Byte) : U32 :=
  b3 ++ b2 ++ b1 ++ b0

/-- The encoder: the word of each command (R72 to R76). -/
def encode : Instr → CommandWord
  | .initX86_32 seed => packCommand 0x1 0 seed
  | .initX86_128 seed => packCommand 0x1 1 seed
  | .initX64_128 seed => packCommand 0x1 2 seed
  | .reset seed => packCommand 0x2 0 seed
  | .update0 => packCommand 0x3 0 0
  | .update1 b0 => packCommand 0x3 1 (packPayload b0 0 0 0)
  | .update2 b0 b1 => packCommand 0x3 2 (packPayload b0 b1 0 0)
  | .update3 b0 b1 b2 => packCommand 0x3 3 (packPayload b0 b1 b2 0)
  | .update4 b0 b1 b2 b3 => packCommand 0x3 4 (packPayload b0 b1 b2 b3)
  | .finalize => packCommand 0x4 0 0

/-- A row of the opcode table: the word has the row's command exactly when its bits under `mask`
equal `pattern`. -/
structure OpcodeRow where
  mnemonic : String
  pattern : CommandWord
  mask : CommandWord
  deriving DecidableEq, Repr

/-- spec/opcode_table.json, row by row. -/
def opcodeTable : List OpcodeRow :=
  [⟨"INIT.X86_32", 0x1000000000000000, 0xFFFFFFFF00000000⟩,
   ⟨"INIT.X86_128", 0x1000000100000000, 0xFFFFFFFF00000000⟩,
   ⟨"INIT.X64_128", 0x1000000200000000, 0xFFFFFFFF00000000⟩,
   ⟨"RESET", 0x2000000000000000, 0xFFFFFFFF00000000⟩,
   ⟨"UPDATE.0", 0x3000000000000000, 0xFFFFFFFFFFFFFFFF⟩,
   ⟨"UPDATE.1", 0x3000000100000000, 0xFFFFFFFFFFFFFF00⟩,
   ⟨"UPDATE.2", 0x3000000200000000, 0xFFFFFFFFFFFF0000⟩,
   ⟨"UPDATE.3", 0x3000000300000000, 0xFFFFFFFFFF000000⟩,
   ⟨"UPDATE.4", 0x3000000400000000, 0xFFFFFFFF00000000⟩,
   ⟨"FINALIZE", 0x4000000000000000, 0xFFFFFFFFFFFFFFFF⟩]

/-- The word has the row's bits under the row's mask. -/
def OpcodeRow.admits (row : OpcodeRow) (cmd : CommandWord) : Bool :=
  cmd &&& row.mask == row.pattern

/-- The instruction the decoder reads from a table row's word: bit k of `w` is `CMD[k]`, and bits at
and above `nbits` are 0. -/
def decodeTableWord (nbits w : Nat) : Option Instr :=
  match decode (BitVec.ofNat 64 (w % 2 ^ nbits)) with
  | .ok i => some i
  | .error _ => none

end Sys2Proof
end

