-- ==== Sys2Proof/Machine/Operands.lean ====
section
/-! DEFINITION. The variants' parameters, byte strings and their little-endian words, register
codes, and the operands of the commands. -/

namespace Sys2Proof.Machine

/-! ## Parameters of a variant (00_scope.md R8) -/

/-- `B(var)`, the block size in bytes. -/
def blockSize : Variant → Nat
  | .x86_32 => 4
  | .x86_128 => 16
  | .x64_128 => 16

/-- `W(var)`, the width of a hash word in bits. -/
def wordWidth : Variant → Nat
  | .x86_32 => 32
  | .x86_128 => 32
  | .x64_128 => 64

/-- `NW(var)`, the number of hash words. -/
def wordCount : Variant → Nat
  | .x86_32 => 1
  | .x86_128 => 4
  | .x64_128 => 2

/-- `DL(var)`, the digest length in bytes. -/
def digestLength : Variant → Nat
  | .x86_32 => 4
  | .x86_128 => 16
  | .x64_128 => 16

/-! ## Register and status codes -/

/-- The 2-bit code of PHASE (10_state.md R21). -/
def phaseCode : Phase → BitVec 2
  | .unconfigured => 0
  | .active => 1
  | .finalized => 2

/-- The 2-bit code of VAR (10_state.md R22). -/
def variantCode : Variant → BitVec 2
  | .x86_32 => 0
  | .x86_128 => 1
  | .x64_128 => 2

/-- The 4-bit STATUS code (30_encoding.md R81). -/
def statusCode : Status → BitVec 4
  | .ok => 0
  | .illegal => 1
  | .unconfigured => 2
  | .finalized => 3

/-- The variant that tags the hash words (10_state.md R23). -/
def HashState.variant : HashState → Variant
  | .x86_32 _ => .x86_32
  | .x86_128 _ => .x86_128
  | .x64_128 _ => .x64_128

/-! ## Byte strings and little-endian words (00_scope.md R13, R14; 20_memory.md R54 to R57) -/

/-- `b[o..o+n)`, or as much of it as `b` has. -/
def slice (b : List Byte) (o n : Nat) : List Byte :=
  (b.drop o).take n

/-- `le(b) = Σ b[m]·2^(8m)` as an exact number (R14). -/
def leNat : List Byte → Nat
  | [] => 0
  | b :: bs => b.toNat + 256 * leNat bs

/-- `le(b)` as a W-bit word: the first byte is the least significant, absent high bytes are zero
(R14, R54, R55; log entry 9). -/
def le (w : Nat) (b : List Byte) : BitVec w :=
  BitVec.ofNat w (leNat b)

/-- `le32(b, o)` (R14). -/
def le32 (b : List Byte) (o : Nat) : U32 :=
  le 32 (slice b o 4)

/-- `le64(b, o)` (R14). -/
def le64 (b : List Byte) (o : Nat) : U64 :=
  le 64 (slice b o 8)

/-- `bytes_le_W(v)`: byte m is `v[8m+7:8m]` (R14). -/
def bytesLe {w : Nat} (v : BitVec w) : List Byte :=
  (List.range (w / 8)).map fun m => v.extractLsb' (8 * m) 8

/-- `digest_word(d)`: the u128 whose bits `[8k+7:8k]` hold `d[k]` (44_commands.md R193). -/
def digestWord (d : List Byte) : U128 :=
  le 128 d

/-! ## Operands of the commands -/

/-- The operation of a command (30_encoding.md R72). -/
def operation : Instr → Operation
  | .initX86_32 _ => .init
  | .initX86_128 _ => .init
  | .initX64_128 _ => .init
  | .reset _ => .reset
  | .update0 => .update
  | .update1 _ => .update
  | .update2 _ _ => .update
  | .update3 _ _ _ => .update
  | .update4 _ _ _ _ => .update
  | .finalize => .finalize

/-- The payload of an UPDATE, byte 0 first in the stream (44_commands.md R186); `none` for the other
commands. -/
def payload : Instr → Option (List Byte)
  | .update0 => some []
  | .update1 b0 => some [b0]
  | .update2 b0 b1 => some [b0, b1]
  | .update3 b0 b1 b2 => some [b0, b1, b2]
  | .update4 b0 b1 b2 b3 => some [b0, b1, b2, b3]
  | .initX86_32 _ => none
  | .initX86_128 _ => none
  | .initX64_128 _ => none
  | .reset _ => none
  | .finalize => none

/-- The INIT command of a variant (30_encoding.md R73). -/
def initInstr : Variant → U32 → Instr
  | .x86_32, seed => .initX86_32 seed
  | .x86_128, seed => .initX86_128 seed
  | .x64_128, seed => .initX64_128 seed

/-- The UPDATE command of a byte string of at most four bytes (30_encoding.md R75, R83). -/
def updateInstr : List Byte → Option Instr
  | [] => some .update0
  | [b0] => some (.update1 b0)
  | [b0, b1] => some (.update2 b0 b1)
  | [b0, b1, b2] => some (.update3 b0 b1 b2)
  | [b0, b1, b2, b3] => some (.update4 b0 b1 b2 b3)
  | _ => none

end Sys2Proof.Machine
end

