-- ==== Sys2Proof/Machine/Flags.lean ====
section
/-! DEFINITION. The response status. The engine has no flags or condition codes (10_state.md R31);
the one thing of that kind is the status each command's check computes (60_exceptions.md R212). -/

namespace Sys2Proof.Machine

/-- The part of `check` that a legal word of operation `op` goes through, in its order of priority
(R212): INIT passes in every phase, then E_UNCONFIGURED, then E_FINALIZED for UPDATE and FINALIZE. -/
def phaseCheck (op : Operation) (phase : Phase) : Status :=
  if op = .init then .ok
  else if phase = .unconfigured then .unconfigured
  else if op = .reset then .ok
  else if phase = .finalized then .finalized
  else .ok

/-- `check(S, CMD)` as R212 writes it, on the word itself, by the legality predicate and the OP
field. The step computes the same status through the decoder; statements compare the two. -/
def commandCheck (e : Engine) (cmd : CommandWord) : Status :=
  let op := (cmd.extractLsb 63 60).toNat
  if !legal cmd then .illegal
  else if op = 1 then .ok
  else if e.phase = .unconfigured then .unconfigured
  else if op = 2 then .ok
  else if e.phase = .finalized ∧ (op = 3 ∨ op = 4) then .finalized
  else .ok

end Sys2Proof.Machine
end

