-- ==== Sys2Proof/Machine/Primitives.lean ====
section
/-! DEFINITION. The mixing primitives the three variants share (40_primitives.md R100 to R104).
Literals are exactly those the spec prints (R105). -/

namespace Sys2Proof.Machine

/-- `rotl32(x, r)` (R100). -/
def rotl32 (x : U32) (r : Fin 32) : U32 :=
  if r = 0 then x else (x <<< r.val) ||| (x >>> (32 - r.val))

/-- `rotl64(x, r)` (R101). -/
def rotl64 (x : U64) (r : Fin 64) : U64 :=
  if r = 0 then x else (x <<< r.val) ||| (x >>> (64 - r.val))

/-- `fmix32(h)`, the 32-bit avalanche finalizer (R102). -/
def fmix32 (h : U32) : U32 :=
  let h := h ^^^ (h >>> 16)
  let h := h * 0x85ebca6b
  let h := h ^^^ (h >>> 13)
  let h := h * 0xc2b2ae35
  h ^^^ (h >>> 16)

/-- `fmix64(h)`, the 64-bit avalanche finalizer (R103). -/
def fmix64 (h : U64) : U64 :=
  let h := h ^^^ (h >>> 33)
  let h := h * 0xff51afd7ed558ccd
  let h := h ^^^ (h >>> 33)
  let h := h * 0xc4ceb9fe1a85ec53
  h ^^^ (h >>> 33)

end Sys2Proof.Machine
end

