-- ==== Sys2Proof/Machine/X64_128.lean ====
section
/-! DEFINITION. The 128-bit x64 variant X64_128 (43_x64_128.md R160 to R166). -/

namespace Sys2Proof.Machine

/-- c1 of R163. -/
def c1X64 : U64 := 0x87c37b91114253d5

/-- c2 of R163. -/
def c2X64 : U64 := 0x4cf5ad432745937f

/-- `mixk1_64(k)` (R161). -/
def mixk1X64 (k : U64) : U64 :=
  rotl64 (k * c1X64) 31 * c2X64

/-- `mixk2_64(k)`: c1 and c2 exchanged, rotation 33 (R162). -/
def mixk2X64 (k : U64) : U64 :=
  rotl64 (k * c2X64) 33 * c1X64

/-- `block_x64_128(H1, H2, blk)` (R160): H1 adds the old H2, H2 adds the new H1. The additive
constants are zero-extended (R10). -/
def blockX64_128 (h : X64Words) (blk : List Byte) : X64Words :=
  let h1 := (rotl64 (h.h1 ^^^ mixk1X64 (le64 blk 0)) 27 + h.h2) * 5 + 0x52dce729
  let h2 := (rotl64 (h.h2 ^^^ mixk2X64 (le64 blk 8)) 31 + h1) * 5 + 0x38495ab5
  { h1 := h1, h2 := h2 }

/-- The tail input word k1: bytes 0 to 7 of the tail that are present (R164, R165). -/
def tailInput1X64 (t : List Byte) : U64 :=
  le 64 (slice t 0 8)

/-- The tail input word k2: bytes 8 to 14 of the tail that are present (R164, R165). -/
def tailInput2X64 (t : List Byte) : U64 :=
  le 64 (slice t 8 8)

/-- `tail_x64_128(H1, H2, t)`, k2 first as the source orders it (R164). -/
def tailX64_128 (h : X64Words) (t : List Byte) : X64Words :=
  let h2 := if 8 < t.length then h.h2 ^^^ mixk2X64 (tailInput2X64 t) else h.h2
  let h1 := if 0 < t.length then h.h1 ^^^ mixk1X64 (tailInput1X64 t) else h.h1
  { h1 := h1, h2 := h2 }

/-- The cross-add of R166: H2 adds the new H1. -/
def crossAddX64 (h : X64Words) : X64Words :=
  let h1 := h.h1 + h.h2
  { h1 := h1, h2 := h.h2 + h1 }

/-- H1 and H2 after the final mix: all 64 bits of LEN are mixed (R166). -/
def finalWordsX64_128 (h : X64Words) (len : U64) : X64Words :=
  let h : X64Words := { h1 := h.h1 ^^^ len, h2 := h.h2 ^^^ len }
  let h := crossAddX64 h
  let h : X64Words := { h1 := fmix64 h.h1, h2 := fmix64 h.h2 }
  crossAddX64 h

/-- `final_x64_128(H1, H2, LEN)`: the sixteen digest bytes (R166). -/
def finalX64_128 (h : X64Words) (len : U64) : List Byte :=
  let h := finalWordsX64_128 h len
  bytesLe h.h1 ++ bytesLe h.h2

end Sys2Proof.Machine
end

