-- ==== Sys2Proof/Machine/X86_128.lean ====
section
/-! DEFINITION. The 128-bit x86 variant X86_128 (42_x86_128.md R140 to R145), in the corrected forms
of 90_conflicts.md C2 (each word couples to the next) and C3 (the second constant is cyclic).

Word i of the spec, 1 to 4, is index i - 1 of `Fin 4` here, so the spec's `nx(i) = (i mod 4) + 1` is
`i + 1` in `Fin 4`, which wraps. -/

namespace Sys2Proof.Machine

/-- The column c_i of R142. -/
def c128 : Fin 4 → U32
  | 0 => 0x239b961b
  | 1 => 0xab0e9789
  | 2 => 0x38b34ae5
  | 3 => 0xa1e38b93

/-- The column r_i (rotation of k) of R142. -/
def r128 : Fin 4 → Fin 32
  | 0 => 15
  | 1 => 16
  | 2 => 17
  | 3 => 18

/-- The column s_i (rotation of h) of R142. -/
def s128 : Fin 4 → Fin 32
  | 0 => 19
  | 1 => 17
  | 2 => 15
  | 3 => 13

/-- The column a_i (additive constant) of R142. -/
def a128 : Fin 4 → U32
  | 0 => 0x561ccd1b
  | 1 => 0x0bcaa747
  | 2 => 0x96cd1c35
  | 3 => 0x32ac3b17

/-- `mixk_128(i, k)` (R141). -/
def mixk128 (i : Fin 4) (k : U32) : U32 :=
  rotl32 (k * c128 i) (r128 i) * c128 (i + 1)

/-- One line of R140: the new H[i] from its old value `h`, the coupling word `next` (H[nx(i)] at that
moment) and the input word `k`. -/
def foldWord128 (i : Fin 4) (h next k : U32) : U32 :=
  (rotl32 (h ^^^ mixk128 i k) (s128 i) + next) * 5 + a128 i

/-- `block_x86_128(H1..H4, blk)` (R140): H1 to H3 couple to the next word's old value, H4 to H1's
new value. -/
def blockX86_128 (h : X86Words) (blk : List Byte) : X86Words :=
  let h1 := foldWord128 0 h.h1 h.h2 (le32 blk 0)
  let h2 := foldWord128 1 h.h2 h.h3 (le32 blk 4)
  let h3 := foldWord128 2 h.h3 h.h4 (le32 blk 8)
  let h4 := foldWord128 3 h.h4 h1 (le32 blk 12)
  { h1 := h1, h2 := h2, h3 := h3, h4 := h4 }

/-- The tail input word k_i: bytes 4(i-1) to 4i-1 of the tail that are present, little-endian, high
bytes zero (R143, R144). -/
def tailInput128 (i : Fin 4) (t : List Byte) : U32 :=
  le 32 (slice t (4 * i.val) 4)

/-- H[i] after the tail fold: mixed only if k_i received at least one byte (R143). -/
def tailWord128 (i : Fin 4) (h : U32) (t : List Byte) : U32 :=
  if 4 * i.val < t.length then h ^^^ mixk128 i (tailInput128 i t) else h

/-- `tail_x86_128(H1..H4, t)` (R143), k4 first as the source orders it. -/
def tailX86_128 (h : X86Words) (t : List Byte) : X86Words :=
  let h4 := tailWord128 3 h.h4 t
  let h3 := tailWord128 2 h.h3 t
  let h2 := tailWord128 1 h.h2 t
  let h1 := tailWord128 0 h.h1 t
  { h1 := h1, h2 := h2, h3 := h3, h4 := h4 }

/-- The cross-add of R145: H2, H3 and H4 add the new H1. -/
def crossAdd128 (h : X86Words) : X86Words :=
  let h1 := h.h1 + h.h2 + h.h3 + h.h4
  { h1 := h1, h2 := h.h2 + h1, h3 := h.h3 + h1, h4 := h.h4 + h1 }

/-- H1..H4 after the final mix: only `LEN[31:0]` is mixed (R145). -/
def finalWordsX86_128 (h : X86Words) (len : U64) : X86Words :=
  let l := len.extractLsb' 0 32
  let h : X86Words := { h1 := h.h1 ^^^ l, h2 := h.h2 ^^^ l, h3 := h.h3 ^^^ l, h4 := h.h4 ^^^ l }
  let h := crossAdd128 h
  let h : X86Words := { h1 := fmix32 h.h1, h2 := fmix32 h.h2, h3 := fmix32 h.h3, h4 := fmix32 h.h4 }
  crossAdd128 h

/-- `final_x86_128(H1..H4, LEN)`: the sixteen digest bytes (R145). -/
def finalX86_128 (h : X86Words) (len : U64) : List Byte :=
  let h := finalWordsX86_128 h len
  bytesLe h.h1 ++ bytesLe h.h2 ++ bytesLe h.h3 ++ bytesLe h.h4

end Sys2Proof.Machine
end

