-- ==== Sys2Proof/Machine/X86_32.lean ====
section
/-! DEFINITION. The 32-bit variant X86_32 (41_x86_32.md R120 to R125). -/

namespace Sys2Proof.Machine

/-- `mixk_32(k)`, with c1 = 0xcc9e2d51 and c2 = 0x1b873593 (R121). -/
def mixk32 (k : U32) : U32 :=
  rotl32 (k * 0xcc9e2d51) 15 * 0x1b873593

/-- `block_32(H1, blk)` (R120). -/
def block32 (h1 : U32) (blk : List Byte) : U32 :=
  rotl32 (h1 ^^^ mixk32 (le32 blk 0)) 13 * 5 + 0xe6546b64

/-- `tail_32(H1, t)`: no rotate, multiply or add on H1 (R123). -/
def tail32 (h1 : U32) (t : List Byte) : U32 :=
  if 1 ≤ t.length then h1 ^^^ mixk32 (le 32 t) else h1

/-- H1 after the final mix: only `LEN[31:0]` is mixed (R125). -/
def finalWord32 (h1 : U32) (len : U64) : U32 :=
  fmix32 (h1 ^^^ len.extractLsb' 0 32)

/-- `final_32(H1, LEN)`: the four digest bytes (R125). -/
def final32 (h1 : U32) (len : U64) : List Byte :=
  bytesLe (finalWord32 h1 len)

end Sys2Proof.Machine
end

