-- ==== Sys2Proof/Machine/Ops.lean ====
section
/-! DEFINITION. The named operations over the state that the commands share: initialisation, the
variant dispatch, the block loop, reading elements, answering a command, and rejecting one.

The engine has no memory and no trap: the one shared "exception" operation is `reject`, the whole
effect of an error (60_exceptions.md R213, R217), and there is no return from it. -/

namespace Sys2Proof.Machine

/-! ## Initialisation (10_state.md R25) -/

/-- Every hash word of `v` equal to the seed; X64_128's words zero-extend it. -/
def initWords (v : Variant) (seed : U32) : HashState :=
  match v with
  | .x86_32 => .x86_32 seed
  | .x86_128 => .x86_128 { h1 := seed, h2 := seed, h3 := seed, h4 := seed }
  | .x64_128 => .x64_128 { h1 := seed.setWidth 64, h2 := seed.setWidth 64 }

/-- `init_state(var, seed)`. -/
def initState (v : Variant) (seed : U32) : Engine :=
  { phase := .active, var := some v, hs := some (initWords v seed), len := some 0,
    carry := some [] }

/-! ## Variant dispatch (44_commands.md R187) -/

/-- `block_fold(VAR)`: the block fold of the variant that tags the words. -/
def blockFold (hs : HashState) (blk : List Byte) : HashState :=
  match hs with
  | .x86_32 h1 => .x86_32 (block32 h1 blk)
  | .x86_128 h => .x86_128 (blockX86_128 h blk)
  | .x64_128 h => .x64_128 (blockX64_128 h blk)

/-- `tail_fold(VAR)`. -/
def tailFold (hs : HashState) (t : List Byte) : HashState :=
  match hs with
  | .x86_32 h1 => .x86_32 (tail32 h1 t)
  | .x86_128 h => .x86_128 (tailX86_128 h t)
  | .x64_128 h => .x64_128 (tailX64_128 h t)

/-- `final_mix(VAR)`: the digest bytes. -/
def finalMix (hs : HashState) (len : U64) : List Byte :=
  match hs with
  | .x86_32 h1 => final32 h1 len
  | .x86_128 h => finalX86_128 h len
  | .x64_128 h => finalX64_128 h len

/-! ## The block loop of UPDATE (44_commands.md R188) -/

/-- `while len(buf) >= B: HS <- block_fold(HS, buf[0..B)); buf <- buf[B..)`, at most `fuel` rounds. -/
def absorbLoop : Nat → HashState → List Byte → HashState × List Byte
  | 0, hs, buf => (hs, buf)
  | fuel + 1, hs, buf =>
    if blockSize hs.variant ≤ buf.length then
      absorbLoop fuel (blockFold hs (buf.take (blockSize hs.variant)))
        (buf.drop (blockSize hs.variant))
    else (hs, buf)

/-- The whole loop: a round removes at least one byte, so `len(buf)` rounds are enough. -/
def absorb (hs : HashState) (buf : List Byte) : HashState × List Byte :=
  absorbLoop buf.length hs buf

/-! ## Reading elements (10_state.md R34) -/

/-- What UPDATE and FINALIZE read of an open computation: HS, LEN and CARRY. -/
structure Computation where
  hs : HashState
  len : U64
  carry : List Byte
  deriving DecidableEq, Repr

/-- Read VAR, HS, LEN and CARRY. An element that holds no value is a fault, never a zero
(70_reset_and_hazards.md R241); so is a tag that differs from VAR (log entry 6). -/
def openComputation (e : Engine) : Except Fault Computation :=
  match e.var, e.hs, e.len, e.carry with
  | some v, some hs, some len, some carry =>
    if hs.variant = v then .ok { hs := hs, len := len, carry := carry }
    else .error .hashTagMismatch
  | none, _, _, _ => .error (.noValue .var)
  | some _, none, _, _ => .error (.noValue .hs)
  | some _, some _, none, _ => .error (.noValue .len)
  | some _, some _, some _, none => .error (.noValue .carry)

/-! ## Answering a command (30_encoding.md R80, 44_commands.md R180) -/

/-- The state after a command: the engine's new state, and one response at the end of the response
channel. -/
def State.answer (s : State) (e : Engine) (status : Status) (data : U128) : State :=
  { s with engine := e, responses := s.responses ++ [{ status := status, data := data }] }

/-- Reject the command with an error status: no state element changes, the response data is 0
(60_exceptions.md R213). -/
def reject (status : Status) (s : State) : Host.Outcome State Fault Refusal :=
  .next (s.answer s.engine status 0)

/-- Run `body` if the phase check of the operation passes, else reject the command (R180, R212). -/
def checked (op : Operation) (s : State) (body : Host.Outcome State Fault Refusal) :
    Host.Outcome State Fault Refusal :=
  match phaseCheck op s.engine.phase with
  | .ok => body
  | .illegal => reject .illegal s
  | .unconfigured => reject .unconfigured s
  | .finalized => reject .finalized s

/-! ## The four operations (44_commands.md) -/

/-- `INIT var, seed` (R182, R183). -/
def performInit (v : Variant) (seed : U32) (s : State) : Host.Outcome State Fault Refusal :=
  checked .init s (.next (s.answer (initState v seed) .ok 0))

/-- `RESET seed`: VAR is read and kept (R184, R185). -/
def performReset (seed : U32) (s : State) : Host.Outcome State Fault Refusal :=
  checked .reset s
    (match s.engine.var with
     | some v => .next (s.answer (initState v seed) .ok 0)
     | none => .fault (.noValue .var))

/-- The engine after an UPDATE of `data` on the open computation `c` (R188). -/
def updatedEngine (e : Engine) (c : Computation) (data : List Byte) : Engine :=
  let folded := absorb c.hs (c.carry ++ data)
  { e with
    hs := some folded.1
    len := some (c.len + BitVec.ofNat 64 data.length)
    carry := some folded.2 }

/-- `UPDATE` of the payload `data` (R188, R189, R190). -/
def performUpdate (data : List Byte) (s : State) : Host.Outcome State Fault Refusal :=
  checked .update s
    (match openComputation s.engine with
     | .ok c => .next (s.answer (updatedEngine s.engine c data) .ok 0)
     | .error f => .fault f)

/-- The digest of the open computation: tail fold of CARRY, then final mix with LEN (R192). -/
def digestOf (c : Computation) : List Byte :=
  finalMix (tailFold c.hs c.carry) c.len

/-- The engine after FINALIZE: HS, LEN and CARRY hold no value, VAR is kept (R192; 10_state.md
R34). -/
def finalizedEngine (e : Engine) : Engine :=
  { e with phase := .finalized, hs := none, len := none, carry := none }

/-- `FINALIZE` (R192, R193). -/
def performFinalize (s : State) : Host.Outcome State Fault Refusal :=
  checked .finalize s
    (match openComputation s.engine with
     | .ok c => .next (s.answer (finalizedEngine s.engine) .ok (digestWord (digestOf c)))
     | .error f => .fault f)

end Sys2Proof.Machine
end

