-- ==== Sys2Proof/Machine/Finalize.lean ====
section
/-! DEFINITION. FINALIZE (44_commands.md R191 to R194). -/

namespace Sys2Proof.Machine

/-- `FINALIZE`. -/
def execFinalize (s : State) : Host.Outcome State Fault Refusal :=
  performFinalize s

end Sys2Proof.Machine
end

