-- ==== Sys2Proof/Machine/Init.lean ====
section
/-! DEFINITION. INIT, one meaning per variant (44_commands.md R182, R183). -/

namespace Sys2Proof.Machine

/-- `INIT x86_32, seed`. -/
def execInitX86_32 (seed : U32) (s : State) : Host.Outcome State Fault Refusal :=
  performInit .x86_32 seed s

/-- `INIT x86_128, seed`. -/
def execInitX86_128 (seed : U32) (s : State) : Host.Outcome State Fault Refusal :=
  performInit .x86_128 seed s

/-- `INIT x64_128, seed`. -/
def execInitX64_128 (seed : U32) (s : State) : Host.Outcome State Fault Refusal :=
  performInit .x64_128 seed s

end Sys2Proof.Machine
end

