-- ==== Sys2Proof/Machine/Reset.lean ====
section
/-! DEFINITION. RESET (44_commands.md R184, R185). -/

namespace Sys2Proof.Machine

/-- `RESET seed`. -/
def execReset (seed : U32) (s : State) : Host.Outcome State Fault Refusal :=
  performReset seed s

end Sys2Proof.Machine
end

