-- ==== Sys2Proof/Machine/Update.lean ====
section
/-! DEFINITION. UPDATE, one meaning per byte count (44_commands.md R186 to R190). -/

namespace Sys2Proof.Machine

/-- `UPDATE`: no bytes. -/
def execUpdate0 (s : State) : Host.Outcome State Fault Refusal :=
  performUpdate [] s

/-- `UPDATE b0`. -/
def execUpdate1 (b0 : Byte) (s : State) : Host.Outcome State Fault Refusal :=
  performUpdate [b0] s

/-- `UPDATE b0, b1`. -/
def execUpdate2 (b0 b1 : Byte) (s : State) : Host.Outcome State Fault Refusal :=
  performUpdate [b0, b1] s

/-- `UPDATE b0, b1, b2`. -/
def execUpdate3 (b0 b1 b2 : Byte) (s : State) : Host.Outcome State Fault Refusal :=
  performUpdate [b0, b1, b2] s

/-- `UPDATE b0, b1, b2, b3`. -/
def execUpdate4 (b0 b1 b2 b3 : Byte) (s : State) : Host.Outcome State Fault Refusal :=
  performUpdate [b0, b1, b2, b3] s

end Sys2Proof.Machine
end

