-- ==== Sys2Proof/Machine/Dispatch.lean ====
section
/-! DEFINITION. One arm per command (44_commands.md R180). -/

namespace Sys2Proof.Machine

def exec (i : Instr) (s : State) : Host.Outcome State Fault Refusal :=
  match i with
  | .initX86_32 seed => Sys2Proof.Machine.execInitX86_32 seed s
  | .initX86_128 seed => Sys2Proof.Machine.execInitX86_128 seed s
  | .initX64_128 seed => Sys2Proof.Machine.execInitX64_128 seed s
  | .reset seed => Sys2Proof.Machine.execReset seed s
  | .update0 => Sys2Proof.Machine.execUpdate0 s
  | .update1 b0 => Sys2Proof.Machine.execUpdate1 b0 s
  | .update2 b0 b1 => Sys2Proof.Machine.execUpdate2 b0 b1 s
  | .update3 b0 b1 b2 => Sys2Proof.Machine.execUpdate3 b0 b1 b2 s
  | .update4 b0 b1 b2 b3 => Sys2Proof.Machine.execUpdate4 b0 b1 b2 b3 s
  | .finalize => Sys2Proof.Machine.execFinalize s

end Sys2Proof.Machine
end

