-- ==== Sys2Proof/Machine/Step.lean ====
section
/-! DEFINITION. One step of the machine: take the oldest command word and answer it
(20_memory.md R60, 44_commands.md R180). -/

namespace Sys2Proof.Machine

/-- One step. A word that is not legal is answered with E_ILLEGAL and changes no state (R79,
60_exceptions.md R210); a legal one is executed. With no command waiting nothing changes (log
entry 2). -/
def step (s : State) : Host.Outcome State Fault Refusal :=
  match s.commands with
  | [] => .next s
  | cmd :: rest =>
    match decode cmd with
    | .ok i => exec i (s.withCommands rest)
    | .error _ => reject .illegal (s.withCommands rest)

/-- `n` steps in a row, up to the first fault or refusal: the commands are performed one at a time, in
order (20_memory.md R60). -/
def runSteps : Nat → State → Host.Outcome State Fault Refusal
  | 0, s => .next s
  | n + 1, s =>
    match step s with
    | .next t => runSteps n t
    | .fault f => .fault f
    | .refused r => .refused r

/-- `s` with the word `w` (bits at and above `nbits` zero) as the next word of the command channel. -/
def State.withFetchWord (s : State) (nbits w : Nat) : State :=
  s.withNextCommand (BitVec.ofNat 64 (w % 2 ^ nbits))

end Sys2Proof.Machine
end

