-- ==== Sys2Proof/Machine/Assembly.lean ====
section
/-! DEFINITION. The assembler (30_encoding.md R83) and the pseudo-instructions UPDATES and HASH
(R84, R85). It is host software: the machine does not use it. Text is a list of characters. What
R83 leaves unsaid of the text is log entry 8. -/

namespace Sys2Proof.Machine

/-! ## Lines to commands -/

/-- `UPDATES b`: four bytes an UPDATE, the last with the 1 to 3 that remain; nothing for the empty
string (R84). -/
def expandUpdates : List Byte → List Instr
  | [] => []
  | [b0] => [.update1 b0]
  | [b0, b1] => [.update2 b0 b1]
  | [b0, b1, b2] => [.update3 b0 b1 b2]
  | b0 :: b1 :: b2 :: b3 :: rest => .update4 b0 b1 b2 b3 :: expandUpdates rest

/-- `HASH variant, seed, bytes`: INIT, then UPDATES, then FINALIZE (R85). -/
def expandHash (v : Variant) (seed : U32) (bytes : List Byte) : List Instr :=
  initInstr v seed :: expandUpdates bytes ++ [.finalize]

/-- The commands of one source line, or nothing if a number is out of range: the assembler rejects,
it never truncates (R83). -/
def assembleLine (line : SourceLine) : Option (List Instr) :=
  if line.wellFormed then
    match line with
    | .init v seed => some [initInstr v (BitVec.ofNat 32 seed)]
    | .reset seed => some [.reset (BitVec.ofNat 32 seed)]
    | .update bytes => (updateInstr (bytes.map (BitVec.ofNat 8))).map fun i => [i]
    | .finalize => some [.finalize]
    | .updates bytes => some (expandUpdates bytes)
    | .hash v seed bytes => some (expandHash v (BitVec.ofNat 32 seed) bytes)
  else none

/-! ## Text to lines -/

/-- The characters that separate words of a line: space, tab and carriage return. R83 names none; that
a carriage return is a blank, wherever it stands outside a string, is log entry 8. -/
def isBlank (c : Char) : Bool :=
  c == ' ' || c == '\t' || c == '\r'

/-- Text without blanks at either end. -/
def trim (cs : List Char) : List Char :=
  ((cs.dropWhile isBlank).reverse.dropWhile isBlank).reverse

/-- Text up to a `;` that stands outside a quoted string: `;` starts a comment (R83). -/
def stripComment : Bool → List Char → List Char
  | _, [] => []
  | inString, c :: cs =>
    if c == ';' && !inString then [] else c :: stripComment (inString != (c == '"')) cs

/-- Split at each `sep` outside a quoted string. -/
def splitOutsideStrings (sep : Char) : Bool → List Char → List (List Char)
  | _, [] => [[]]
  | inString, c :: cs =>
    if c == sep && !inString then [] :: splitOutsideStrings sep false cs
    else
      match splitOutsideStrings sep (inString != (c == '"')) cs with
      | [] => [[c]]
      | field :: fields => (c :: field) :: fields

/-- The lines of a text: a line feed, and nothing else, ends a line, inside a string too, and what
follows the last one is a line. R83 says only "One command per line"; log entry 8. -/
def splitLines : List Char → List (List Char)
  | [] => [[]]
  | c :: cs =>
    if c == '\n' then [] :: splitLines cs
    else
      match splitLines cs with
      | [] => [[c]]
      | line :: lines => (c :: line) :: lines

/-- The value of a decimal digit. -/
def decimalDigit (c : Char) : Option Nat :=
  if '0'.toNat ≤ c.toNat ∧ c.toNat ≤ '9'.toNat then some (c.toNat - '0'.toNat) else none

/-- The value of a hexadecimal digit of either case. -/
def hexDigit (c : Char) : Option Nat :=
  if '0'.toNat ≤ c.toNat ∧ c.toNat ≤ '9'.toNat then some (c.toNat - '0'.toNat)
  else if 'a'.toNat ≤ c.toNat ∧ c.toNat ≤ 'f'.toNat then some (c.toNat - 'a'.toNat + 10)
  else if 'A'.toNat ≤ c.toNat ∧ c.toNat ≤ 'F'.toNat then some (c.toNat - 'A'.toNat + 10)
  else none

/-- The number its digits write in the given base, most significant first. -/
def digitsValue (base : Nat) (digit : Char → Option Nat) (acc : Nat) : List Char → Option Nat
  | [] => some acc
  | c :: cs =>
    match digit c with
    | some d => digitsValue base digit (base * acc + d) cs
    | none => none

/-- A number: decimal or `0x` hexadecimal (R83). -/
def parseNumber : List Char → Option Nat
  | [] => none
  | '0' :: 'x' :: [] => none
  | '0' :: 'x' :: cs => digitsValue 16 hexDigit 0 cs
  | cs => digitsValue 10 decimalDigit 0 cs

/-- Numbers, all of them or none. -/
def parseNumbers : List (List Char) → Option (List Nat)
  | [] => some []
  | f :: fs =>
    match parseNumber f, parseNumbers fs with
    | some n, some ns => some (n :: ns)
    | _, _ => none

/-- An upper-case ASCII letter as its lower-case one; any other character as it is. -/
def lowerAscii (c : Char) : Char :=
  if 'A'.toNat ≤ c.toNat ∧ c.toNat ≤ 'Z'.toNat then Char.ofNat (c.toNat + 32) else c

/-- A variant's name: "The variant names are case-insensitive" (R83). -/
def parseVariant (cs : List Char) : Option Variant :=
  let name := cs.map lowerAscii
  if name = ['x', '8', '6', '_', '3', '2'] then some .x86_32
  else if name = ['x', '8', '6', '_', '1', '2', '8'] then some .x86_128
  else if name = ['x', '6', '4', '_', '1', '2', '8'] then some .x64_128
  else none

/-- The ASCII characters up to the closing quote, which ends the operand. -/
def parseQuoted : List Char → Option (List Byte)
  | [] => none
  | c :: cs =>
    if c == '"' then (if cs.isEmpty then some [] else none)
    else if c.toNat < 128 then (parseQuoted cs).map fun bs => BitVec.ofNat 8 c.toNat :: bs
    else none

/-- Pairs of hexadecimal digits: "an even number of hex digits" (R84). -/
def parseHexPairs : List Char → Option (List Byte)
  | [] => some []
  | [_] => none
  | hi :: lo :: cs =>
    match hexDigit hi, hexDigit lo, parseHexPairs cs with
    | some h, some l, some bs => some (BitVec.ofNat 8 (16 * h + l) :: bs)
    | _, _, _ => none

/-- `<bytes>`: a double-quoted ASCII string, or `hex:` and hexadecimal digits (R84). -/
def parseBytes : List Char → Option (List Byte)
  | '"' :: cs => parseQuoted cs
  | 'h' :: 'e' :: 'x' :: ':' :: cs => parseHexPairs cs
  | _ => none

/-- The operands of a line: none if there is no text, else the fields between commas (R83). -/
def parseOperands (cs : List Char) : List (List Char) :=
  if cs.isEmpty then [] else (splitOutsideStrings ',' false cs).map trim

/-- The source line of a mnemonic and its operands (R83 to R85). -/
def parseCommand (mnemonic : List Char) (operands : List (List Char)) : Option SourceLine :=
  if mnemonic = ['I', 'N', 'I', 'T'] then
    match operands with
    | [v, seed] =>
      match parseVariant v, parseNumber seed with
      | some v, some n => some (.init v n)
      | _, _ => none
    | _ => none
  else if mnemonic = ['R', 'E', 'S', 'E', 'T'] then
    match operands with
    | [seed] => (parseNumber seed).map .reset
    | _ => none
  else if mnemonic = ['U', 'P', 'D', 'A', 'T', 'E'] then
    (parseNumbers operands).map .update
  else if mnemonic = ['F', 'I', 'N', 'A', 'L', 'I', 'Z', 'E'] then
    match operands with
    | [] => some .finalize
    | _ => none
  else if mnemonic = ['U', 'P', 'D', 'A', 'T', 'E', 'S'] then
    match operands with
    | [bytes] => (parseBytes bytes).map .updates
    | _ => none
  else if mnemonic = ['H', 'A', 'S', 'H'] then
    match operands with
    | [v, seed, bytes] =>
      match parseVariant v, parseNumber seed, parseBytes bytes with
      | some v, some n, some b => some (.hash v n b)
      | _, _, _ => none
    | _ => none
  else none

/-- The commands of one line of text: none for a blank or comment line; nothing if the line is
rejected. One command a line, mnemonic first (R83). -/
def assembleTextLine (cs : List Char) : Option (List Instr) :=
  let line := trim (stripComment false cs)
  if line.isEmpty then some []
  else
    let mnemonic := line.takeWhile fun c => !isBlank c
    let operands := parseOperands (trim (line.dropWhile fun c => !isBlank c))
    match parseCommand mnemonic operands with
    | some l => assembleLine l
    | none => none

/-- The commands of all the lines, or nothing if one is rejected. -/
def assembleTextLines : List (List Char) → Option (List Instr)
  | [] => some []
  | l :: ls =>
    match assembleTextLine l, assembleTextLines ls with
    | some is, some js => some (is ++ js)
    | _, _ => none

/-- The commands of a source text. -/
def assembleText (cs : List Char) : Option (List Instr) :=
  assembleTextLines (splitLines cs)

end Sys2Proof.Machine
end

