-- ==== Sys2Proof/Machine/Hash.lean ====
section
/-! DEFINITION. The reference the command sequences are held against: the three hash functions of a
whole stream (41_x86_32.md R126, 42_x86_128.md R146, 43_x64_128.md R167), the engine state a stream
leads to (10_state.md R25, R26, R29), and the self-test procedure (70_reset_and_hazards.md R243).
The step uses none of them. -/

namespace Sys2Proof.Machine

/-- Block j of a stream, `T[B·j .. B·j+B)` (10_state.md R29). -/
def streamBlock (b : Nat) (t : List Byte) (j : Nat) : List Byte :=
  slice t (b * j) b

/-- Fold the full blocks of a stream in increasing j, each once. -/
def foldStream {α : Type} (b : Nat) (fold : α → List Byte → α) (h : α) (t : List Byte) : α :=
  (List.range (t.length / b)).foldl (fun h j => fold h (streamBlock b t j)) h

/-- What remains after the full blocks: `T[B·floor(len(T)/B) .. len(T))`. -/
def streamRest (b : Nat) (t : List Byte) : List Byte :=
  t.drop (b * (t.length / b))

/-- `MH3_x86_32(T, s)` (R126). -/
def mh3X86_32 (t : List Byte) (seed : U32) : List Byte :=
  final32 (tail32 (foldStream 4 block32 seed t) (streamRest 4 t)) (BitVec.ofNat 64 t.length)

/-- `MH3_x86_128(T, s)` (R146). -/
def mh3X86_128 (t : List Byte) (seed : U32) : List Byte :=
  let h : X86Words := { h1 := seed, h2 := seed, h3 := seed, h4 := seed }
  finalX86_128 (tailX86_128 (foldStream 16 blockX86_128 h t) (streamRest 16 t))
    (BitVec.ofNat 64 t.length)

/-- `MH3_x64_128(T, s)` (R167). -/
def mh3X64_128 (t : List Byte) (seed : U32) : List Byte :=
  let h : X64Words := { h1 := seed.setWidth 64, h2 := seed.setWidth 64 }
  finalX64_128 (tailX64_128 (foldStream 16 blockX64_128 h t) (streamRest 16 t))
    (BitVec.ofNat 64 t.length)

/-- `MH3_v(T, s)` (44_commands.md R196). -/
def mh3 : Variant → List Byte → U32 → List Byte
  | .x86_32, t, seed => mh3X86_32 t seed
  | .x86_128, t, seed => mh3X86_128 t seed
  | .x64_128, t, seed => mh3X64_128 t seed

/-- The stream a sequence of UPDATE commands carries: the concatenation of their payloads (00_scope.md
R19). -/
def streamOf (updates : List Instr) : List Byte :=
  updates.flatMap fun u => (payload u).getD []

/-- The engine state of a hash computation with variant `v` and seed `seed` after the stream `t`
(10_state.md R25, R26, R29). -/
def streamEngine (v : Variant) (seed : U32) (t : List Byte) : Engine :=
  { phase := .active
    var := some v
    hs := some (foldStream (blockSize v) blockFold (initWords v seed) t)
    len := some (BitVec.ofNat 64 t.length)
    carry := some (streamRest (blockSize v) t) }

/-- The key of the self-test, `key[0..i)` with `key[j] = j` (R243). -/
def selfTestKey (i : Nat) : List Byte :=
  (List.range i).map (BitVec.ofNat 8)

/-- `selftest(v)` (R243), by the hash function of a whole stream. -/
def selfTest (v : Variant) : U32 :=
  let acc := (List.range 256).flatMap fun i => mh3 v (selfTestKey i) (BitVec.ofNat 32 (256 - i))
  le32 (mh3 v acc 0) 0

end Sys2Proof.Machine
end

