-- ==== Sys2Proof/Safety.lean ====
section
/-! DEFINITION. What holds of every state the engine can be in, and what a safe step is. -/

namespace Sys2Proof.Machine

/-- The engine states the spec allows:
UNCONFIGURED, nothing holds a value (10_state.md R34, R37);
ACTIVE, everything holds a value, HS is tagged by VAR (R23), CARRY is shorter than a block (R27) and
its length is LEN mod B (R28);
FINALIZED, only VAR holds a value (R34). -/
def Engine.wf (e : Engine) : Bool :=
  match e.phase, e.var, e.hs, e.len, e.carry with
  | .unconfigured, none, none, none, none => true
  | .active, some v, some hs, some len, some carry =>
    decide (hs.variant = v) && decide (carry.length < blockSize v) &&
      decide (carry.length = len.toNat % blockSize v)
  | .finalized, some _, none, none, none => true
  | _, _, _, _, _ => false

/-- The machine's invariant: its engine is in a state the spec allows. The channels may hold
anything. -/
abbrev State.Inv (s : State) : Prop :=
  s.engine.wf = true

/-- A step is safe when the machine goes on: it neither faults nor refuses. -/
def Answers (o : Host.Outcome State Fault Refusal) : Prop :=
  ∃ t, o = .next t

/-- The engine holds an open computation with these elements (phase ACTIVE). -/
def Engine.Open (e : Engine) (v : Variant) (hs : HashState) (len : U64) (carry : List Byte) : Prop :=
  e = { phase := .active, var := some v, hs := some hs, len := some len, carry := some carry } ∧
    hs.variant = v

end Sys2Proof.Machine
end

