-- ==== Sys2Proof/Certificates/Slice0/Obligations.lean ====
section
/-! DEFINITION. The statements for the provers. Each docstring names the rule of spec/ it comes
from. -/

open Sys2Proof Sys2Proof.Machine

/-! ## Encoding -/

/-- The encodings of the example table of 30_encoding.md section 5, from their assembly, and the words
it calls illegal (the spec marks the table as its own inference). -/
def Obligations.SpecExampleWordsAssembleAndDecode : Prop :=
  (∀ row ∈ ([
      (SourceLine.init .x86_32 0, Instr.initX86_32 0, 0x1000000000000000),
      (.init .x86_128 0x9747b28c, .initX86_128 0x9747b28c, 0x100000019747b28c),
      (.init .x64_128 0xffffffff, .initX64_128 0xffffffff, 0x10000002ffffffff),
      (.reset 0x2a, .reset 0x2a, 0x200000000000002a),
      (.update [], .update0, 0x3000000000000000),
      (.update [0x61], .update1 0x61, 0x3000000100000061),
      (.update [0x61, 0x62, 0x63], .update3 0x61 0x62 0x63, 0x3000000300636261),
      (.update [0x21, 0x43, 0x65, 0x87], .update4 0x21 0x43 0x65 0x87, 0x3000000487654321),
      (.finalize, .finalize, 0x4000000000000000)] : List (SourceLine × Instr × CommandWord)),
    assembleLine row.1 = some [row.2.1] ∧ encode row.2.1 = row.2.2 ∧
      decode row.2.2 = .ok row.2.1) ∧
  (∀ cmd ∈ ([0x0000000000000000, 0x3000000100000161, 0x1000000300000000, 0x4000001000000000] :
      List CommandWord), legal cmd = false ∧ ∀ i, decode cmd ≠ .ok i)

/-- Decoding an encoded command gives it back, for every command and every operand value (R70 to
R77). -/
def Obligations.DecodeOfEncodeIsIdentity : Prop :=
  ∀ i : Instr, decode (encode i) = .ok i

/-- A word that decodes is the encoding of what it decodes to: no bit of a legal word is ignored (R71,
R78). -/
def Obligations.EncodeOfDecodeIsIdentity : Prop :=
  ∀ (cmd : CommandWord) (i : Instr), decode cmd = .ok i → encode i = cmd

/-- R78: the decoder accepts exactly the legal words, a word is legal exactly when it matches a row of
the opcode table under the row's mask, and no word matches two rows. -/
def Obligations.DecoderAcceptsExactlyLegalWords : Prop :=
  ∀ cmd : CommandWord,
    ((∃ i, decode cmd = .ok i) ↔ legal cmd = true) ∧
    (legal cmd = true ↔ ∃ row ∈ opcodeTable, row.admits cmd = true) ∧
    ∀ r₁ ∈ opcodeTable, ∀ r₂ ∈ opcodeTable, r₁.admits cmd = true → r₂.admits cmd = true → r₁ = r₂

/-- R79: every word that is not legal is rejected with E_ILLEGAL, in every phase, and changes no
state; and the words R79 lists are not legal. -/
def Obligations.IllegalWordIsRejected : Prop :=
  (∀ (s : State) (cmd : CommandWord) (rest : List CommandWord),
    s.commands = cmd :: rest → legal cmd = false →
    step s = .next { s with
      commands := rest, responses := s.responses ++ [{ status := .illegal, data := 0 }] }) ∧
  ∀ cmd : CommandWord,
    (cmd.extractLsb 63 60 = 0 ∨ 5 ≤ (cmd.extractLsb 63 60).toNat ∨
     cmd.extractLsb 59 36 ≠ 0 ∨
     (cmd.extractLsb 63 60 = 1 ∧ 3 ≤ (cmd.extractLsb 35 32).toNat) ∨
     (cmd.extractLsb 63 60 = 3 ∧ 5 ≤ (cmd.extractLsb 35 32).toNat) ∨
     (cmd.extractLsb 63 60 = 3 ∧ (cmd.extractLsb 35 32).toNat < 4 ∧
       cmd.extractLsb 31 0 >>> (8 * (cmd.extractLsb 35 32).toNat) ≠ 0) ∨
     (cmd.extractLsb 63 60 = 2 ∧ cmd.extractLsb 35 32 ≠ 0) ∨
     (cmd.extractLsb 63 60 = 4 ∧ (cmd.extractLsb 35 32 ≠ 0 ∨ cmd.extractLsb 31 0 ≠ 0))) →
    legal cmd = false

/-! ## The step and its channels -/

/-- A step takes the oldest command word and runs the command it decodes to (44_commands.md R180,
20_memory.md R60). -/
def Obligations.StepRunsTheDecodedCommand : Prop :=
  ∀ (s : State) (cmd : CommandWord) (rest : List CommandWord) (i : Instr),
    s.commands = cmd :: rest → decode cmd = .ok i →
    step s = exec i { s with commands := rest }

/-- The model's choice, log entry 2: with no command waiting, a step changes nothing. -/
def Obligations.IdleStepChangesNothing : Prop :=
  ∀ s : State, s.commands = [] → step s = .next s

/-- R37: at power-on PHASE is UNCONFIGURED and nothing else holds a value, and the engine refuses
every command but INIT, staying in that state. -/
def Obligations.PowerOnStateHoldsNoValues : Prop :=
  State.reset.engine.phase = .unconfigured ∧ State.reset.engine.var = none ∧
  State.reset.engine.hs = none ∧ State.reset.engine.len = none ∧
  State.reset.engine.carry = none ∧
  ∀ i : Instr, operation i ≠ .init →
    exec i State.reset = .next { State.reset with
      responses := [{ status := .unconfigured, data := 0 }] }

/-- The power-on state satisfies the invariant. -/
def Obligations.PowerOnStateSatisfiesTheInvariant : Prop :=
  State.reset.Inv

/-- Every step keeps the invariant of 10_state.md R23, R27, R28 and R34: in each phase exactly the
right elements hold a value, HS is tagged by VAR, and CARRY has LEN mod B bytes, fewer than a
block. The length clause is an inference the spec marks as its own ("In `ACTIVE` phase, `CC = LEN mod
B(VAR)` at the end of every command"); the step with no command waiting is log entry 2. -/
def Obligations.EveryStepKeepsTheInvariant : Prop :=
  ∀ s t : State, s.Inv → step s = .next t → t.Inv

/-- "the engine always answers a command: no command can leave it stuck or running forever" (R248): no
step faults or refuses, whatever words are waiting. With none waiting it is the model's choice, log
entry 2. -/
def Obligations.EveryStepAnswersUnderTheInvariant : Prop :=
  ∀ s : State, s.Inv → Answers (step s)

/-- R80: every command, legal or not, produces exactly one response, at the end of the response
channel, and is taken off the command channel. -/
def Obligations.EveryCommandGetsExactlyOneResponse : Prop :=
  ∀ (s : State) (cmd : CommandWord) (rest : List CommandWord),
    s.Inv → s.commands = cmd :: rest →
    ∃ (t : State) (r : Response), step s = .next t ∧ t.commands = rest ∧
      t.responses = s.responses ++ [r]

/-- R212: the status of the response is the check of the word in the state before it. -/
def Obligations.ResponseStatusIsTheCheckOfTheWord : Prop :=
  ∀ (s : State) (cmd : CommandWord) (rest : List CommandWord),
    s.Inv → s.commands = cmd :: rest →
    ∃ (t : State) (d : U128), step s = .next t ∧
      t.responses = s.responses ++ [{ status := commandCheck s.engine cmd, data := d }]

/-- R82: the response data is the digest for a FINALIZE with status OK, and 0 for every other
response. -/
def Obligations.ResponseDataIsZeroExceptForFinalize : Prop :=
  ∀ (s : State) (cmd : CommandWord) (rest : List CommandWord),
    s.Inv → s.commands = cmd :: rest →
    ∃ (t : State) (r : Response), step s = .next t ∧ t.responses = s.responses ++ [r] ∧
      ((r.status = .ok ∧ cmd.extractLsb 63 60 = 4) →
        ∃ c, openComputation s.engine = .ok c ∧ r.data = digestWord (digestOf c)) ∧
      (¬(r.status = .ok ∧ cmd.extractLsb 63 60 = 4) → r.data = 0)

/-- R213: a command whose check is not OK changes no state element; its response is the status with
data 0; the next command is accepted as usual. In every state. -/
def Obligations.RejectedCommandChangesNoState : Prop :=
  ∀ (s : State) (cmd : CommandWord) (rest : List CommandWord),
    s.commands = cmd :: rest → commandCheck s.engine cmd ≠ .ok →
    step s = .next { s with
      commands := rest
      responses := s.responses ++ [{ status := commandCheck s.engine cmd, data := 0 }] }

/-- "its result depends on the state S and the word CMD and on nothing else" (44_commands.md section 1,
an inference the spec marks as its own): two machines with the same engine and the same next word reach the same engine and give the same
response, whatever their channels hold. -/
def Obligations.StepDependsOnlyOnEngineAndWord : Prop :=
  ∀ (s₁ s₂ : State) (cmd : CommandWord) (rest₁ rest₂ : List CommandWord) (t₁ : State),
    s₁.engine = s₂.engine → s₁.commands = cmd :: rest₁ → s₂.commands = cmd :: rest₂ →
    step s₁ = .next t₁ →
    ∃ (t₂ : State) (r : Response), step s₂ = .next t₂ ∧ t₁.engine = t₂.engine ∧
      t₁.responses = s₁.responses ++ [r] ∧ t₂.responses = s₂.responses ++ [r]

/-- The host may send words or take a response before or after a step, with the same result: the
engine never reads later words or its own responses. That no word is lost and no step waits for a
response is the model's choice of unbounded channels, log entries 1 and 3. -/
def Obligations.HostChannelActsCommuteWithStep : Prop :=
  ∀ (s t : State) (cmd : CommandWord) (rest : List CommandWord),
    s.commands = cmd :: rest → step s = .next t →
    (∀ later : List CommandWord, step (s.deliver later) = .next (t.deliver later)) ∧
    (s.responses ≠ [] → step s.takeResponse.2 = .next t.takeResponse.2 ∧
      s.takeResponse.1 = t.takeResponse.1)

/-! ## The commands -/

/-- INIT of each variant, in every state, starts afresh, whatever computation it discards, and produces
no digest (44_commands.md section 2). What it leaves is `init_state` of 10_state.md section 3: PHASE
ACTIVE, VAR the variant, every hash word the seed, LEN 0, CARRY empty. Inferences the spec marks as
its own: the zero extension of X64_128's words, LEN 0 and CARRY empty. -/
def Obligations.InitConstructsFromTheSeed : Prop :=
  ∀ (s : State) (seed : U32),
    exec (.initX86_32 seed) s = .next { s with
      engine := { phase := .active, var := some .x86_32, hs := some (.x86_32 seed), len := some 0,
                  carry := some [] }
      responses := s.responses ++ [{ status := .ok, data := 0 }] } ∧
    exec (.initX86_128 seed) s = .next { s with
      engine := { phase := .active, var := some .x86_128,
                  hs := some (.x86_128 { h1 := seed, h2 := seed, h3 := seed, h4 := seed }),
                  len := some 0, carry := some [] }
      responses := s.responses ++ [{ status := .ok, data := 0 }] } ∧
    exec (.initX64_128 seed) s = .next { s with
      engine := { phase := .active, var := some .x64_128,
                  hs := some (.x64_128 { h1 := seed.setWidth 64, h2 := seed.setWidth 64 }),
                  len := some 0, carry := some [] }
      responses := s.responses ++ [{ status := .ok, data := 0 }] }

/-- RESET in ACTIVE or FINALIZED completes: VAR is kept, PHASE becomes ACTIVE, every hash word of VAR
is the new seed, LEN 0, CARRY empty (44_commands.md R184). -/
def Obligations.ResetRestoresTheInitialState : Prop :=
  ∀ (s : State) (v : Variant) (seed : U32),
    s.engine.phase ≠ .unconfigured → s.engine.var = some v →
    exec (.reset seed) s = .next { s with
      engine := { phase := .active, var := some v,
                  hs := some (match v with
                    | .x86_32 => .x86_32 seed
                    | .x86_128 => .x86_128 { h1 := seed, h2 := seed, h3 := seed, h4 := seed }
                    | .x64_128 => .x64_128 { h1 := seed.setWidth 64, h2 := seed.setWidth 64 }),
                  len := some 0, carry := some [] }
      responses := s.responses ++ [{ status := .ok, data := 0 }] }

/-- "After RESET the engine behaves exactly as after `INIT VAR, seed` with the kept VAR", in both open
phases (44_commands.md section 3, an inference the spec marks as its own). -/
def Obligations.ResetEqualsInitWithKeptVariant : Prop :=
  ∀ (s : State) (v : Variant) (seed : U32),
    s.engine.phase = .active ∨ s.engine.phase = .finalized → s.engine.var = some v →
    exec (.reset seed) s = exec (initInstr v seed) s

/-- INIT and RESET are idempotent: repeating one with the same fields gives the same state (20_memory.md
section 3, an inference the spec marks as its own). -/
def Obligations.InitAndResetAreIdempotent : Prop :=
  ∀ (i : Instr) (s t : State), operation i = .init ∨ operation i = .reset →
    exec i s = .next t → ∃ u, exec i t = .next u ∧ u.engine = t.engine

/-- UPDATE.0 to UPDATE.4 while no block completes: the payload joins CARRY, LEN grows by its length
modulo 2^64, and nothing else changes (44_commands.md R188, R190). -/
def Obligations.UpdateBuffersAnIncompleteBlock : Prop :=
  ∀ (s : State) (v : Variant) (hs : HashState) (len : U64) (carry data : List Byte) (i : Instr),
    s.engine.Open v hs len carry → payload i = some data →
    carry.length + data.length < blockSize v →
    exec i s = .next { s with
      engine := { s.engine with
        len := some (len + BitVec.ofNat 64 data.length), carry := some (carry ++ data) }
      responses := s.responses ++ [{ status := .ok, data := 0 }] }

/-- UPDATE.0 to UPDATE.4 when a block completes: exactly one block is folded, the first B bytes of
CARRY and payload together, and the rest waits in CARRY; LEN grows by the payload's length
(44_commands.md R188, R189). -/
def Obligations.UpdateFoldsExactlyOneCompletedBlock : Prop :=
  ∀ (s : State) (v : Variant) (hs : HashState) (len : U64) (carry data : List Byte) (i : Instr),
    s.engine.Open v hs len carry → payload i = some data →
    carry.length < blockSize v → blockSize v ≤ carry.length + data.length →
    exec i s = .next { s with
      engine := { s.engine with
        hs := some (blockFold hs ((carry ++ data).take (blockSize v)))
        len := some (len + BitVec.ofNat 64 data.length)
        carry := some ((carry ++ data).drop (blockSize v)) }
      responses := s.responses ++ [{ status := .ok, data := 0 }] }

/-- UPDATE with no bytes changes no state element and answers OK (44_commands.md R189). -/
def Obligations.UpdateOfNoBytesChangesNothing : Prop :=
  ∀ (s : State) (v : Variant) (hs : HashState) (len : U64) (carry : List Byte),
    s.engine.Open v hs len carry → carry.length < blockSize v →
    exec .update0 s = .next { s with
      responses := s.responses ++ [{ status := .ok, data := 0 }] }

/-- FINALIZE of X86_32: the digest word is fmix32 of the tail-folded H1 xor LEN[31:0], zero-extended;
HS, LEN and CARRY hold no value after it and VAR is kept (41_x86_32.md R125; 44_commands.md R192,
R193). -/
def Obligations.FinalizeX86_32ReturnsTheDigest : Prop :=
  ∀ (s : State) (h1 : U32) (len : U64) (carry : List Byte),
    s.engine.Open .x86_32 (.x86_32 h1) len carry →
    exec .finalize s = .next { s with
      engine := { phase := .finalized, var := some .x86_32, hs := none, len := none, carry := none }
      responses := s.responses ++
        [{ status := .ok
           data := (fmix32 (tail32 h1 carry ^^^ len.setWidth 32)).setWidth 128 }] }

/-- FINALIZE of X86_128: the response data is `H4·2^96 + H3·2^64 + H2·2^32 + H1` of the final words
(42_x86_128.md R145; 44_commands.md R192, R193). -/
def Obligations.FinalizeX86_128ReturnsTheDigest : Prop :=
  ∀ (s : State) (words : X86Words) (len : U64) (carry : List Byte),
    s.engine.Open .x86_128 (.x86_128 words) len carry →
    exec .finalize s = .next { s with
      engine := { phase := .finalized, var := some .x86_128, hs := none, len := none, carry := none }
      responses := s.responses ++
        [{ status := .ok
           data :=
             let h := finalWordsX86_128 (tailX86_128 words carry) len
             h.h4 ++ h.h3 ++ h.h2 ++ h.h1 }] }

/-- FINALIZE of X64_128: the response data is `H2·2^64 + H1` of the final words (43_x64_128.md R166;
44_commands.md R192, R193). -/
def Obligations.FinalizeX64_128ReturnsTheDigest : Prop :=
  ∀ (s : State) (words : X64Words) (len : U64) (carry : List Byte),
    s.engine.Open .x64_128 (.x64_128 words) len carry →
    exec .finalize s = .next { s with
      engine := { phase := .finalized, var := some .x64_128, hs := none, len := none, carry := none }
      responses := s.responses ++
        [{ status := .ok
           data :=
             let h := finalWordsX64_128 (tailX64_128 words carry) len
             h.h2 ++ h.h1 }] }

/-- R35: FINALIZE leaves no copy of the digest, and after it a second FINALIZE, or an UPDATE of any
length, is rejected with E_FINALIZED and data 0. -/
def Obligations.SecondFinalizeIsRejected : Prop :=
  ∀ s t : State, s.engine.phase = .active → exec .finalize s = .next t →
    t.engine.hs = none ∧ t.engine.len = none ∧ t.engine.carry = none ∧
    ∀ i : Instr, operation i = .finalize ∨ operation i = .update →
      exec i t = .next { t with
        responses := t.responses ++ [{ status := .finalized, data := 0 }] }

/-- R211: which commands raise a phase error, in which phase; every other legal command in every
other phase answers OK whenever it answers, whatever its data; and only a legal word raises one. -/
def Obligations.PhaseErrorsAreExactlyTheTable : Prop :=
  (∀ (i : Instr) (s : State),
    (s.engine.phase = .unconfigured → operation i ≠ .init →
      exec i s = .next { s with
        responses := s.responses ++ [{ status := .unconfigured, data := 0 }] }) ∧
    (s.engine.phase = .finalized → operation i = .update ∨ operation i = .finalize →
      exec i s = .next { s with
        responses := s.responses ++ [{ status := .finalized, data := 0 }] }) ∧
    (operation i = .init ∨ s.engine.phase = .active ∨
        (s.engine.phase = .finalized ∧ operation i = .reset) →
      ∀ (t : State) (r : Response), exec i s = .next t → t.responses = s.responses ++ [r] →
        r.status = .ok)) ∧
  ∀ (s t : State) (cmd : CommandWord) (rest : List CommandWord) (r : Response),
    s.commands = cmd :: rest → step s = .next t → t.responses = s.responses ++ [r] →
    r.status = .unconfigured ∨ r.status = .finalized → legal cmd = true

/-- The frame of every command that answers (10_state.md R21, R22, R36; 60_exceptions.md R213): the
command channel and the earlier responses are unchanged; only INIT writes VAR; UPDATE does not
write PHASE; a command answered with an error writes nothing. -/
def Obligations.EveryCommandKeepsItsFrame : Prop :=
  ∀ (i : Instr) (s t : State), exec i s = .next t →
    t.commands = s.commands ∧
    (operation i ≠ .init → t.engine.var = s.engine.var) ∧
    (operation i = .update → t.engine.phase = s.engine.phase) ∧
    ∃ r : Response, t.responses = s.responses ++ [r] ∧ (r.status ≠ .ok → t.engine = s.engine)

/-- The life cycle of 10_state.md R21, for every step: UNCONFIGURED is left only by INIT and never
entered again; FINALIZED is entered only from ACTIVE, by FINALIZE; it is left only by INIT or
RESET, for ACTIVE. -/
def Obligations.PhaseChangesFollowTheLifeCycle : Prop :=
  ∀ (s t : State) (cmd : CommandWord) (rest : List CommandWord),
    s.commands = cmd :: rest → step s = .next t →
    (t.engine.phase = .unconfigured → s.engine.phase = .unconfigured) ∧
    (s.engine.phase = .unconfigured → t.engine.phase ≠ .unconfigured →
      t.engine.phase = .active ∧ ∃ v seed, decode cmd = .ok (initInstr v seed)) ∧
    (s.engine.phase ≠ .finalized → t.engine.phase = .finalized →
      s.engine.phase = .active ∧ decode cmd = .ok .finalize) ∧
    (s.engine.phase = .finalized → t.engine.phase ≠ .finalized →
      t.engine.phase = .active ∧
        ((∃ v seed, decode cmd = .ok (initInstr v seed)) ∨ ∃ seed, decode cmd = .ok (.reset seed)))

/-- "A model must fault, not return zero, if its own code ever reads" an element that holds no value
(70_reset_and_hazards.md section 1). Which operations read which elements is the model's reading of
the pseudocode, log entry 4: UPDATE and FINALIZE read VAR, HS, LEN and CARRY, also when no block
completes; RESET reads VAR. No reachable state has one missing (EveryStepKeepsTheInvariant). -/
def Obligations.ReadingAMissingValueFaults : Prop :=
  (∀ (i : Instr) (s : State), operation i = .update ∨ operation i = .finalize →
    s.engine.phase = .active →
    s.engine.var = none ∨ s.engine.hs = none ∨ s.engine.len = none ∨ s.engine.carry = none →
    ∃ f, exec i s = .fault f) ∧
  ∀ (seed : U32) (s : State), s.engine.phase ≠ .unconfigured → s.engine.var = none →
    exec (.reset seed) s = .fault (.noValue .var)

/-! ## Streams of commands -/

/-- 10_state.md R29: after INIT and any UPDATEs, from any state, the block folds applied are those of
the full blocks of the stream in order, each once, CARRY is the remainder of the stream, and LEN is
its length modulo 2^64; every response is OK. The spec marks the stream invariant as its own
inference. StreamStateFollowsEveryCommand says it for every command, and after RESET too. -/
def Obligations.UpdatesReachTheStreamState : Prop :=
  ∀ (s : State) (v : Variant) (seed : U32) (updates : List Instr) (rest : List CommandWord),
    (∀ u ∈ updates, operation u = .update) →
    s.commands = (initInstr v seed :: updates).map encode ++ rest →
    runSteps (updates.length + 1) s = .next
      { engine := streamEngine v seed (streamOf updates)
        commands := rest
        responses := s.responses ++
          List.replicate (updates.length + 1) { status := .ok, data := 0 } }

/-- INIT, any UPDATEs, FINALIZE, from any state, return the digest of the hash function of the whole
stream that 41_x86_32.md, 42_x86_128.md and 43_x64_128.md define (R126, R146, R167; that the
sequence returns it is an inference the spec marks as its own). -/
def Obligations.HashSequenceReturnsTheReferenceDigest : Prop :=
  ∀ (s : State) (v : Variant) (seed : U32) (updates : List Instr) (rest : List CommandWord),
    (∀ u ∈ updates, operation u = .update) →
    s.commands = (initInstr v seed :: updates ++ [Instr.finalize]).map encode ++ rest →
    runSteps (updates.length + 2) s = .next
      { engine := { phase := .finalized, var := some v, hs := none, len := none, carry := none }
        commands := rest
        responses := s.responses ++
          List.replicate (updates.length + 1) { status := .ok, data := 0 } ++
          [{ status := .ok, data := digestWord (mh3 v (streamOf updates) seed) }] }

/-- R196, chunk invariance: two sequences of UPDATEs with the same concatenated payloads give the same
digest, and it is `MH3_v(T, s)` (an inference the spec marks as its own). -/
def Obligations.DigestIsChunkInvariant : Prop :=
  ∀ (s₁ s₂ : State) (v : Variant) (seed : U32) (t : List Byte) (us₁ us₂ : List Instr)
    (rest₁ rest₂ : List CommandWord),
    (∀ u ∈ us₁, operation u = .update) → (∀ u ∈ us₂, operation u = .update) →
    streamOf us₁ = t → streamOf us₂ = t →
    s₁.commands = (initInstr v seed :: us₁ ++ [Instr.finalize]).map encode ++ rest₁ →
    s₂.commands = (initInstr v seed :: us₂ ++ [Instr.finalize]).map encode ++ rest₂ →
    ∃ t₁ t₂ : State,
      runSteps (us₁.length + 2) s₁ = .next t₁ ∧ runSteps (us₂.length + 2) s₂ = .next t₂ ∧
      t₁.responses.getLast? = some { status := .ok, data := digestWord (mh3 v t seed) } ∧
      t₂.responses.getLast? = t₁.responses.getLast?

/-- The commands of the pseudo-instruction HASH, run in any state, return in the response to the
FINALIZE (30_encoding.md section 4) the hash function's value for its bytes; that it is that value is
an inference the spec marks as its own (44_commands.md section 6). -/
def Obligations.HashPseudoInstructionReturnsTheDigest : Prop :=
  ∀ (s : State) (v : Variant) (seed : U32) (bytes : List Byte) (rest : List CommandWord),
    s.commands = (expandHash v seed bytes).map encode ++ rest →
    ∃ t : State, runSteps (expandHash v seed bytes).length s = .next t ∧ t.commands = rest ∧
      t.responses.getLast? = some { status := .ok, data := digestWord (mh3 v bytes seed) }

/-- R84: UPDATES expands to the UPDATEs of `b[4j .. min(4j+4, len(b)))` for j below ceil(len(b)/4), so
every UPDATE carries 4 bytes except possibly the last, which carries 1 to 3, and the stream is b. -/
def Obligations.UpdatesPseudoInstructionExpandsByFours : Prop :=
  ∀ b : List Byte,
    (expandUpdates b).length = (b.length + 3) / 4 ∧
    (∀ j < (b.length + 3) / 4, (expandUpdates b)[j]? = updateInstr (slice b (4 * j) 4)) ∧
    streamOf (expandUpdates b) = b

/-- The ranges of R83 and "it never truncates": INIT, RESET and HASH take exactly a seed below 2^32,
UPDATE exactly at most four bytes, each below 256, and each accepted number is the operand of the
command, as written; FINALIZE and UPDATES hold no number. Nothing else is accepted. -/
def Obligations.AssemblerAcceptsExactlyNumbersInRange : Prop :=
  (∀ (v : Variant) (n : Nat) (is : List Instr), assembleLine (.init v n) = some is ↔
    n < 2 ^ 32 ∧ ∃ seed : U32, seed.toNat = n ∧ is = [initInstr v seed]) ∧
  (∀ (n : Nat) (is : List Instr), assembleLine (.reset n) = some is ↔
    n < 2 ^ 32 ∧ ∃ seed : U32, seed.toNat = n ∧ is = [.reset seed]) ∧
  (∀ (bytes : List Nat) (is : List Instr), assembleLine (.update bytes) = some is ↔
    bytes.length ≤ 4 ∧ (∀ b ∈ bytes, b < 256) ∧
      ∃ (i : Instr) (data : List Byte), is = [i] ∧ payload i = some data ∧
        data.map BitVec.toNat = bytes) ∧
  (∀ is : List Instr, assembleLine .finalize = some is ↔ is = [.finalize]) ∧
  (∀ (bytes : List Byte) (is : List Instr), assembleLine (.updates bytes) = some is ↔
    is = expandUpdates bytes) ∧
  ∀ (v : Variant) (n : Nat) (bytes : List Byte) (is : List Instr),
    assembleLine (.hash v n bytes) = some is ↔
      n < 2 ^ 32 ∧ ∃ seed : U32, seed.toNat = n ∧
        is = initInstr v seed :: expandUpdates bytes ++ [.finalize]

/-! ## Mixing functions -/

/-- rotl32 and rotl64 move bit i to bit i + r modulo the width, for every amount, 0 included
(40_primitives.md R100, R101). -/
def Obligations.RotatesMoveEveryBit : Prop :=
  (∀ (x : U32) (r : Fin 32) (i : Nat), i < 32 →
    (rotl32 x r).getLsbD ((i + r.val) % 32) = x.getLsbD i) ∧
  ∀ (x : U64) (r : Fin 64) (i : Nat), i < 64 →
    (rotl64 x r).getLsbD ((i + r.val) % 64) = x.getLsbD i

/-- "fmix32 is a bijection, and only 0 maps to 0" (40_primitives.md, an inference the spec marks as its
own). -/
def Obligations.Fmix32IsABijection : Prop :=
  Function.Bijective fmix32 ∧ ∀ h, fmix32 h = 0 ↔ h = 0

/-- fmix64(0) = 0 and "fmix64 is a bijection on u64" (40_primitives.md, an inference the spec marks as
its own). -/
def Obligations.Fmix64IsABijection : Prop :=
  Function.Bijective fmix64 ∧ ∀ h, fmix64 h = 0 ↔ h = 0

/-- The input-word mixes of all three variants map 0 to 0 (R121, R141, R161, R162) and are bijections,
since their constants are odd (the spec infers it for mixk_32; for the others it is this file's
inference from the same ground). -/
def Obligations.InputMixesAreBijections : Prop :=
  (Function.Bijective mixk32 ∧ mixk32 0 = 0) ∧
  (∀ i, Function.Bijective (mixk128 i) ∧ mixk128 i 0 = 0) ∧
  (Function.Bijective mixk1X64 ∧ mixk1X64 0 = 0) ∧
  (Function.Bijective mixk2X64 ∧ mixk2X64 0 = 0)

/-- The explicit X86_128 block fold is the generic loop of 42_x86_128.md R140: for i = 1 to 4 in order
on the four words, each adding the next word, cyclically, as it is at that moment. -/
def Obligations.BlockFoldX86_128IsTheSequentialLoop : Prop :=
  ∀ (h : X86Words) (blk : List Byte),
    let words : Fin 4 → U32 := ![h.h1, h.h2, h.h3, h.h4]
    let round : (Fin 4 → U32) → Fin 4 → (Fin 4 → U32) := fun w i =>
      let x := w i ^^^ mixk128 i (le32 blk (4 * i.val))
      let x := rotl32 x (s128 i)
      let x := x + w (i + 1)
      Function.update w i (x * 5 + a128 i)
    let out := [0, 1, 2, 3].foldl round words
    blockX86_128 h blk = { h1 := out 0, h2 := out 1, h3 := out 2, h4 := out 3 }

/-- A tail whose bytes are all zero, of any length, leaves every hash word of every variant unchanged
(41_x86_32.md, 42_x86_128.md and 43_x64_128.md, corner cases of the tail folds; an inference the
spec marks as its own). -/
def Obligations.ZeroTailLeavesTheWordsUnchanged : Prop :=
  ∀ (hs : HashState) (t : List Byte), (∀ b ∈ t, b = 0) → tailFold hs t = hs

/-- The guards of the 16-byte tail folds are unobservable: folding every word of the zero-filled tail
gives the same words (42_x86_128.md and 43_x64_128.md, corner cases of the tail folds; an inference
the spec marks as its own). -/
def Obligations.TailFoldsNeedNoGuards : Prop :=
  (∀ (h : X86Words) (t : List Byte), tailX86_128 h t =
    { h1 := h.h1 ^^^ mixk128 0 (tailInput128 0 t), h2 := h.h2 ^^^ mixk128 1 (tailInput128 1 t),
      h3 := h.h3 ^^^ mixk128 2 (tailInput128 2 t), h4 := h.h4 ^^^ mixk128 3 (tailInput128 3 t) }) ∧
  ∀ (h : X64Words) (t : List Byte), tailX64_128 h t =
    { h1 := h.h1 ^^^ mixk1X64 (tailInput1X64 t), h2 := h.h2 ^^^ mixk2X64 (tailInput2X64 t) }

/-- R144: tail byte p goes to bits [8(p mod 4)+7 : 8(p mod 4)] of k_{floor(p/4)+1}, the other bytes of
the input words are zero (R55), and k4 never has its top byte. -/
def Obligations.TailBytePlacementX86_128 : Prop :=
  ∀ t : List Byte, t.length ≤ 15 →
    (∀ (i : Fin 4) (q : Nat), q < 4 →
      (tailInput128 i t).extractLsb' (8 * q) 8 = t.getD (4 * i.val + q) 0) ∧
    (tailInput128 3 t).extractLsb' 24 8 = 0

/-- R165: tail byte p goes to bits [8p+7:8p] of k1 for p up to 7 and to bits [8(p-8)+7:8(p-8)] of k2
from 8 on, the other bytes are zero (R55), and k2's top byte is always zero. -/
def Obligations.TailBytePlacementX64_128 : Prop :=
  ∀ t : List Byte, t.length ≤ 15 →
    (∀ q < 8, (tailInput1X64 t).extractLsb' (8 * q) 8 = t.getD q 0) ∧
    (∀ q < 8, (tailInput2X64 t).extractLsb' (8 * q) 8 = t.getD (8 + q) 0) ∧
    (tailInput2X64 t).extractLsb' 56 8 = 0

/-- R14: `le(b)` is the sum of b[m]·2^(8m), and `bytes_le_W` is its inverse at widths 32 and 64. -/
def Obligations.LittleEndianAssemblyIsTheSum : Prop :=
  (∀ b : List Byte, leNat b =
    ((List.range b.length).map fun m => (b.getD m 0).toNat * 2 ^ (8 * m)).sum) ∧
  (∀ v : U32, le 32 (bytesLe v) = v) ∧ (∀ v : U64, le 64 (bytesLe v) = v) ∧
  (∀ b : List Byte, b.length = 4 → bytesLe (le 32 b) = b) ∧
  (∀ b : List Byte, b.length = 8 → bytesLe (le 64 b) = b)

/-- R193: bits [8k+7:8k] of the response data hold digest byte k and every other bit is 0; so the data
is zext_128(H1), or H4·2^96 + H3·2^64 + H2·2^32 + H1, or H2·2^64 + H1, of the final words. Every digest has
DL(VAR) bytes. -/
def Obligations.DigestBytesAreAtTheirPlaces : Prop :=
  (∀ d : List Byte, d.length ≤ 16 → ∀ k < 16,
    (digestWord d).extractLsb' (8 * k) 8 = d.getD k 0) ∧
  (∀ h1 : U32, digestWord (bytesLe h1) = h1.setWidth 128) ∧
  (∀ h1 h2 h3 h4 : U32,
    (digestWord (bytesLe h1 ++ bytesLe h2 ++ bytesLe h3 ++ bytesLe h4)).toNat =
      h4.toNat * 2 ^ 96 + h3.toNat * 2 ^ 64 + h2.toNat * 2 ^ 32 + h1.toNat) ∧
  (∀ h1 h2 : U64,
    (digestWord (bytesLe h1 ++ bytesLe h2)).toNat = h2.toNat * 2 ^ 64 + h1.toNat) ∧
  ∀ (hs : HashState) (len : U64), (finalMix hs len).length = digestLength hs.variant

/-- Only LEN[31:0] enters the final mixes of X86_32 and X86_128 (41_x86_32.md R125, 42_x86_128.md
R145). -/
def Obligations.OnlyLowLengthBitsEnterThe32BitMixes : Prop :=
  ∀ (len₁ len₂ : U64), len₁.toNat % 2 ^ 32 = len₂.toNat % 2 ^ 32 →
    (∀ h1 : U32, final32 h1 len₁ = final32 h1 len₂) ∧
    ∀ h : X86Words, finalX86_128 h len₁ = finalX86_128 h len₂

/-- The empty stream with seed 0 has the all-zero digest in all three variants (44_commands.md R197,
90_conflicts.md C7). -/
def Obligations.EmptyStreamSeedZeroDigestIsZero : Prop :=
  ∀ v : Variant, mh3 v [] 0 = List.replicate (digestLength v) 0

/-! ## The stream invariant, command by command; the operands of a word -/

/-- The stream invariant of 10_state.md section 4 (an inference the spec marks as its own), for every
command. INIT in any state and RESET in any open phase begin the empty stream. From the state of a
stream T, an UPDATE's payload is appended to the stream: the blocks folded are the full blocks of
the longer stream in order, each once, and CARRY is its remainder. A rejected word keeps T. -/
def Obligations.StreamStateFollowsEveryCommand : Prop :=
  ∀ (s : State) (cmd : CommandWord) (rest : List CommandWord), s.commands = cmd :: rest →
    (∀ (v : Variant) (seed : U32), decode cmd = .ok (initInstr v seed) →
      ∃ t, step s = .next t ∧ t.engine = streamEngine v seed []) ∧
    (∀ (v : Variant) (seed : U32), decode cmd = .ok (.reset seed) →
      s.engine.phase ≠ .unconfigured → s.engine.var = some v →
      ∃ t, step s = .next t ∧ t.engine = streamEngine v seed []) ∧
    ∀ (v : Variant) (seed : U32) (stream : List Byte), s.engine = streamEngine v seed stream →
      (∀ (i : Instr) (data : List Byte), decode cmd = .ok i → payload i = some data →
        ∃ t, step s = .next t ∧ t.engine = streamEngine v seed (stream ++ data)) ∧
      (commandCheck s.engine cmd ≠ .ok →
        ∃ t, step s = .next t ∧ t.engine = streamEngine v seed stream)

/-- R77: the operands of a decoded command are the word's own fields: the seed is `CMD[31:0]` as it
is, the variant code and the byte count are `CMD[35:32]`, and payload byte k is `CMD[8k+7:8k]`, for
k below the count, in stream order. -/
def Obligations.OperandsAreTheFieldsOfTheWord : Prop :=
  ∀ (cmd : CommandWord) (i : Instr), decode cmd = .ok i →
    (∀ (v : Variant) (seed : U32), i = initInstr v seed →
      seed = cmd.extractLsb 31 0 ∧ (variantCode v).toNat = (cmd.extractLsb 35 32).toNat) ∧
    (∀ seed : U32, i = .reset seed → seed = cmd.extractLsb 31 0) ∧
    ∀ data : List Byte, payload i = some data →
      data = (List.range (cmd.extractLsb 35 32).toNat).map fun k => cmd.extractLsb' (8 * k) 8
end

