-- ==== Sys2Proof/Laws/Bytes.lean ====
section
/-! SUPPORT. The small laws of byte strings and little-endian words. -/

namespace Sys2Proof.Machine

@[simp] theorem leNat_nil : leNat [] = 0 := rfl

@[simp] theorem leNat_cons (b : Byte) (bs : List Byte) :
    leNat (b :: bs) = b.toNat + 256 * leNat bs := rfl

theorem leNat_lt (b : List Byte) : leNat b < 256 ^ b.length := by
  induction b with
  | nil => simp
  | cons x xs ih =>
    have hx : x.toNat < 256 := x.isLt
    rw [leNat_cons, List.length_cons, Nat.pow_succ]
    omega

/-- Byte q of the number is byte q of the string, and 0 beyond its end. -/
theorem leNat_byte (b : List Byte) (q : Nat) :
    leNat b / 256 ^ q % 256 = (b.getD q 0).toNat := by
  induction b generalizing q with
  | nil => simp
  | cons x xs ih =>
    have hx : x.toNat < 256 := x.isLt
    cases q with
    | zero => simp; omega
    | succ q =>
      rw [leNat_cons, Nat.pow_succ, Nat.mul_comm (256 ^ q), ← Nat.div_div_eq_div_mul]
      have : (x.toNat + 256 * leNat xs) / 256 = leNat xs := by omega
      rw [this, ih]
      simp

@[simp] theorem slice_length (b : List Byte) (o n : Nat) :
    (slice b o n).length = min n (b.length - o) := by
  simp [slice]

@[simp] theorem bytesLe_length {w : Nat} (v : BitVec w) : (bytesLe v).length = w / 8 := by
  simp [bytesLe]

end Sys2Proof.Machine
end

