-- ==== Sys2Proof/Laws/State.lean ====
section
/-! SUPPORT. One lemma per field per update of the state, all by `rfl`. -/

namespace Sys2Proof.Machine

@[simp] theorem answer_engine (s : State) (e : Engine) (st : Status) (d : U128) :
    (s.answer e st d).engine = e := rfl

@[simp] theorem answer_commands (s : State) (e : Engine) (st : Status) (d : U128) :
    (s.answer e st d).commands = s.commands := rfl

@[simp] theorem answer_responses (s : State) (e : Engine) (st : Status) (d : U128) :
    (s.answer e st d).responses = s.responses ++ [{ status := st, data := d }] := rfl

@[simp] theorem withCommands_engine (s : State) (rest : List CommandWord) :
    (s.withCommands rest).engine = s.engine := rfl

@[simp] theorem withCommands_commands (s : State) (rest : List CommandWord) :
    (s.withCommands rest).commands = rest := rfl

@[simp] theorem withCommands_responses (s : State) (rest : List CommandWord) :
    (s.withCommands rest).responses = s.responses := rfl

@[simp] theorem deliver_engine (s : State) (cmds : List CommandWord) :
    (s.deliver cmds).engine = s.engine := rfl

@[simp] theorem deliver_commands (s : State) (cmds : List CommandWord) :
    (s.deliver cmds).commands = s.commands ++ cmds := rfl

@[simp] theorem deliver_responses (s : State) (cmds : List CommandWord) :
    (s.deliver cmds).responses = s.responses := rfl

@[simp] theorem withNextCommand_engine (s : State) (cmd : CommandWord) :
    (s.withNextCommand cmd).engine = s.engine := rfl

@[simp] theorem withNextCommand_commands (s : State) (cmd : CommandWord) :
    (s.withNextCommand cmd).commands = cmd :: s.commands := rfl

@[simp] theorem withNextCommand_responses (s : State) (cmd : CommandWord) :
    (s.withNextCommand cmd).responses = s.responses := rfl

@[simp] theorem initState_phase (v : Variant) (seed : U32) :
    (initState v seed).phase = .active := rfl

@[simp] theorem initState_var (v : Variant) (seed : U32) : (initState v seed).var = some v := rfl

@[simp] theorem initState_hs (v : Variant) (seed : U32) :
    (initState v seed).hs = some (initWords v seed) := rfl

@[simp] theorem initState_len (v : Variant) (seed : U32) : (initState v seed).len = some 0 := rfl

@[simp] theorem initState_carry (v : Variant) (seed : U32) :
    (initState v seed).carry = some [] := rfl

@[simp] theorem updatedEngine_phase (e : Engine) (c : Computation) (data : List Byte) :
    (updatedEngine e c data).phase = e.phase := rfl

@[simp] theorem updatedEngine_var (e : Engine) (c : Computation) (data : List Byte) :
    (updatedEngine e c data).var = e.var := rfl

@[simp] theorem updatedEngine_hs (e : Engine) (c : Computation) (data : List Byte) :
    (updatedEngine e c data).hs = some (absorb c.hs (c.carry ++ data)).1 := rfl

@[simp] theorem updatedEngine_len (e : Engine) (c : Computation) (data : List Byte) :
    (updatedEngine e c data).len = some (c.len + BitVec.ofNat 64 data.length) := rfl

@[simp] theorem updatedEngine_carry (e : Engine) (c : Computation) (data : List Byte) :
    (updatedEngine e c data).carry = some (absorb c.hs (c.carry ++ data)).2 := rfl

@[simp] theorem finalizedEngine_phase (e : Engine) : (finalizedEngine e).phase = .finalized := rfl

@[simp] theorem finalizedEngine_var (e : Engine) : (finalizedEngine e).var = e.var := rfl

@[simp] theorem finalizedEngine_hs (e : Engine) : (finalizedEngine e).hs = none := rfl

@[simp] theorem finalizedEngine_len (e : Engine) : (finalizedEngine e).len = none := rfl

@[simp] theorem finalizedEngine_carry (e : Engine) : (finalizedEngine e).carry = none := rfl

end Sys2Proof.Machine
end

