-- ==== Sys2Proof/Laws/Ops.lean ====
section
/-! SUPPORT. What each shared operation can do, said once. -/

namespace Sys2Proof.Machine

/-! ## Variants and the block loop -/

theorem blockSize_pos (v : Variant) : 0 < blockSize v := by cases v <;> decide

@[simp] theorem initWords_variant (v : Variant) (seed : U32) : (initWords v seed).variant = v := by
  cases v <;> simp [initWords, HashState.variant]

@[simp] theorem blockFold_variant (hs : HashState) (blk : List Byte) :
    (blockFold hs blk).variant = hs.variant := by
  cases hs <;> simp [blockFold, HashState.variant]

@[simp] theorem tailFold_variant (hs : HashState) (t : List Byte) :
    (tailFold hs t).variant = hs.variant := by
  cases hs <;> simp [tailFold, HashState.variant]

theorem absorbLoop_variant (fuel : Nat) (hs : HashState) (buf : List Byte) :
    (absorbLoop fuel hs buf).1.variant = hs.variant := by
  induction fuel generalizing hs buf with
  | zero => rfl
  | succ n ih =>
    unfold absorbLoop
    split
    · rw [ih, blockFold_variant]
    · rfl

@[simp] theorem absorb_variant (hs : HashState) (buf : List Byte) :
    (absorb hs buf).1.variant = hs.variant :=
  absorbLoop_variant _ hs buf

/-- With a buffer shorter than a block the loop does nothing, whatever its fuel. -/
theorem absorbLoop_short (fuel : Nat) (hs : HashState) (buf : List Byte)
    (h : buf.length < blockSize hs.variant) : absorbLoop fuel hs buf = (hs, buf) := by
  cases fuel with
  | zero => rfl
  | succ n => simp [absorbLoop, Nat.not_le.mpr h]

/-- Fuel beyond the buffer's length changes nothing. -/
theorem absorbLoop_fuel (fuel : Nat) (hs : HashState) (buf : List Byte) (h : buf.length ≤ fuel) :
    absorbLoop fuel hs buf = absorb hs buf := by
  induction fuel using Nat.strong_induction_on generalizing hs buf with
  | _ fuel ih =>
    by_cases hb : blockSize hs.variant ≤ buf.length
    · have hpos := blockSize_pos hs.variant
      obtain ⟨n, hn⟩ : ∃ n, buf.length = n + 1 := ⟨buf.length - 1, by omega⟩
      obtain ⟨m, rfl⟩ : ∃ m, fuel = m + 1 := ⟨fuel - 1, by omega⟩
      have hd : (buf.drop (blockSize hs.variant)).length ≤ n := by
        rw [List.length_drop]; omega
      have step : ∀ k, n ≤ k → k ≤ m →
          absorbLoop k (blockFold hs (buf.take (blockSize hs.variant)))
            (buf.drop (blockSize hs.variant)) =
          absorb (blockFold hs (buf.take (blockSize hs.variant)))
            (buf.drop (blockSize hs.variant)) :=
        fun k hk hm => ih k (by omega) _ _ (by omega)
      unfold absorb
      rw [hn]
      simp only [absorbLoop, if_pos hb]
      rw [step m (by omega) (Nat.le_refl m), step n (Nat.le_refl n) (by omega)]
    · rw [absorbLoop_short _ _ _ (by omega), absorb, absorbLoop_short _ _ _ (by omega)]

theorem absorb_short (hs : HashState) (buf : List Byte)
    (h : buf.length < blockSize hs.variant) : absorb hs buf = (hs, buf) :=
  absorbLoop_short _ hs buf h

/-- A complete block at the front of the buffer is folded, and the loop goes on with the rest. -/
theorem absorb_block (hs : HashState) (buf : List Byte) (h : blockSize hs.variant ≤ buf.length) :
    absorb hs buf =
      absorb (blockFold hs (buf.take (blockSize hs.variant))) (buf.drop (blockSize hs.variant)) := by
  have hpos := blockSize_pos hs.variant
  obtain ⟨n, hn⟩ : ∃ n, buf.length = n + 1 := ⟨buf.length - 1, by omega⟩
  rw [← absorbLoop_fuel n _ (buf.drop (blockSize hs.variant)) (by rw [List.length_drop]; omega)]
  unfold absorb
  rw [hn]
  simp only [absorbLoop, if_pos h]

/-- The loop leaves `len(buf) mod B` bytes. -/
theorem absorb_rest_length (hs : HashState) (buf : List Byte) :
    (absorb hs buf).2.length = buf.length % blockSize hs.variant := by
  induction hn : buf.length using Nat.strong_induction_on generalizing hs buf with
  | _ n ih =>
    by_cases hb : blockSize hs.variant ≤ buf.length
    · have hpos := blockSize_pos hs.variant
      rw [absorb_block hs buf hb, ih (buf.length - blockSize hs.variant) (by omega) _ _
        (by rw [List.length_drop]), blockFold_variant, hn]
      exact (Nat.mod_eq_sub_mod (hn ▸ hb)).symm
    · rw [absorb_short hs buf (by omega), ← hn, Nat.mod_eq_of_lt (by omega)]

/-! ## Reading an open computation -/

/-- Reading succeeds exactly when every element holds a value and the tag of HS is VAR. -/
theorem openComputation_eq_ok (e : Engine) (c : Computation) :
    openComputation e = .ok c ↔
      e.var = some c.hs.variant ∧ e.hs = some c.hs ∧ e.len = some c.len ∧
        e.carry = some c.carry := by
  obtain ⟨ph, v, hs, len, carry⟩ := e
  obtain ⟨chs, clen, ccarry⟩ := c
  cases v <;> cases hs <;> cases len <;> cases carry <;> simp [openComputation]
  split <;> simp_all <;> grind

/-- An element that holds no value is never read as a value. -/
theorem openComputation_missing (e : Engine)
    (h : e.var = none ∨ e.hs = none ∨ e.len = none ∨ e.carry = none) :
    ∃ f, openComputation e = .error f := by
  obtain ⟨ph, v, hs, len, carry⟩ := e
  cases v <;> cases hs <;> cases len <;> cases carry <;> simp_all [openComputation]

/-! ## The check -/

theorem phaseCheck_ne_illegal (op : Operation) (p : Phase) : phaseCheck op p ≠ .illegal := by
  cases op <;> cases p <;> decide

/-- INIT passes in every phase. -/
@[simp] theorem phaseCheck_init (p : Phase) : phaseCheck .init p = .ok := rfl

/-- A passed check runs the body. -/
theorem checked_pass {op : Operation} {s : State} (h : phaseCheck op s.engine.phase = .ok)
    (body : Host.Outcome State Fault Refusal) : checked op s body = body := by
  simp [checked, h]

/-- A failed check rejects the command with its status. -/
theorem checked_fail {op : Operation} {s : State} (h : phaseCheck op s.engine.phase ≠ .ok)
    (body : Host.Outcome State Fault Refusal) :
    checked op s body = reject (phaseCheck op s.engine.phase) s := by
  unfold checked
  split <;> simp_all

/-! ## The four operations -/

/-- INIT always completes. -/
theorem performInit_eq (v : Variant) (seed : U32) (s : State) :
    performInit v seed s = .next (s.answer (initState v seed) .ok 0) := by
  rw [performInit, checked_pass (phaseCheck_init _)]

/-- Everything RESET can do when it answers. -/
theorem performReset_next {seed : U32} {s t : State} (h : performReset seed s = .next t) :
    (∃ v, phaseCheck .reset s.engine.phase = .ok ∧ s.engine.var = some v ∧
      t = s.answer (initState v seed) .ok 0) ∨
    (phaseCheck .reset s.engine.phase ≠ .ok ∧
      t = s.answer s.engine (phaseCheck .reset s.engine.phase) 0) := by
  by_cases hc : phaseCheck .reset s.engine.phase = .ok
  · rw [performReset, checked_pass hc] at h
    split at h
    · rename_i v hv
      exact .inl ⟨v, hc, hv, by simpa using h.symm⟩
    · simp at h
  · rw [performReset, checked_fail hc, reject] at h
    exact .inr ⟨hc, by simpa using h.symm⟩

/-- Everything UPDATE can do when it answers. -/
theorem performUpdate_next {data : List Byte} {s t : State} (h : performUpdate data s = .next t) :
    (∃ c, phaseCheck .update s.engine.phase = .ok ∧ openComputation s.engine = .ok c ∧
      t = s.answer (updatedEngine s.engine c data) .ok 0) ∨
    (phaseCheck .update s.engine.phase ≠ .ok ∧
      t = s.answer s.engine (phaseCheck .update s.engine.phase) 0) := by
  by_cases hc : phaseCheck .update s.engine.phase = .ok
  · rw [performUpdate, checked_pass hc] at h
    split at h
    · rename_i c hv
      exact .inl ⟨c, hc, hv, by simpa using h.symm⟩
    · simp at h
  · rw [performUpdate, checked_fail hc, reject] at h
    exact .inr ⟨hc, by simpa using h.symm⟩

/-- Everything FINALIZE can do when it answers. -/
theorem performFinalize_next {s t : State} (h : performFinalize s = .next t) :
    (∃ c, phaseCheck .finalize s.engine.phase = .ok ∧ openComputation s.engine = .ok c ∧
      t = s.answer (finalizedEngine s.engine) .ok (digestWord (digestOf c))) ∨
    (phaseCheck .finalize s.engine.phase ≠ .ok ∧
      t = s.answer s.engine (phaseCheck .finalize s.engine.phase) 0) := by
  by_cases hc : phaseCheck .finalize s.engine.phase = .ok
  · rw [performFinalize, checked_pass hc] at h
    split at h
    · rename_i c hv
      exact .inl ⟨c, hc, hv, by simpa using h.symm⟩
    · simp at h
  · rw [performFinalize, checked_fail hc, reject] at h
    exact .inr ⟨hc, by simpa using h.symm⟩

/-! ## The dispatch -/

/-- The operation a command performs. -/
theorem exec_init (v : Variant) (seed : U32) (s : State) :
    exec (initInstr v seed) s = performInit v seed s := by
  cases v <;> rfl

theorem exec_reset (seed : U32) (s : State) : exec (.reset seed) s = performReset seed s := rfl

theorem exec_finalize (s : State) : exec .finalize s = performFinalize s := rfl

theorem exec_update {i : Instr} {data : List Byte} (h : payload i = some data) (s : State) :
    exec i s = performUpdate data s := by
  cases i <;> simp_all [payload] <;> subst h <;> rfl

/-- Every command is an INIT, a RESET, an UPDATE or FINALIZE. -/
theorem instr_cases (i : Instr) :
    (∃ v seed, i = initInstr v seed) ∨ (∃ seed, i = .reset seed) ∨
      (∃ data, payload i = some data) ∨ i = .finalize := by
  cases i with
  | initX86_32 seed => exact .inl ⟨.x86_32, seed, rfl⟩
  | initX86_128 seed => exact .inl ⟨.x86_128, seed, rfl⟩
  | initX64_128 seed => exact .inl ⟨.x64_128, seed, rfl⟩
  | reset seed => exact .inr (.inl ⟨seed, rfl⟩)
  | finalize => exact .inr (.inr (.inr rfl))
  | _ => exact .inr (.inr (.inl ⟨_, rfl⟩))

end Sys2Proof.Machine
end

