-- ==== Sys2Proof/Laws/Hash.lean ====
section
/-! SUPPORT. The small laws of whole-stream folds: one block, an appended piece, and UPDATE's loop. -/

namespace Sys2Proof.Machine

section Fold

variable {α : Type} {b : Nat} (f : α → List Byte → α) (h : α) (t d : List Byte)

theorem foldStream_short (ht : t.length < b) : foldStream b f h t = h := by
  simp [foldStream, Nat.div_eq_of_lt ht]

theorem streamRest_short (ht : t.length < b) : streamRest b t = t := by
  simp [streamRest, Nat.div_eq_of_lt ht]

/-- The number of full blocks, one block taken off. -/
theorem blocks_succ (hb : 0 < b) (ht : b ≤ t.length) :
    t.length / b = (t.drop b).length / b + 1 := by
  rw [List.length_drop, Nat.div_eq_sub_div hb ht]

theorem streamBlock_zero : streamBlock b t 0 = t.take b := by
  simp [streamBlock, slice]

theorem streamBlock_succ (j : Nat) : streamBlock b t (j + 1) = streamBlock b (t.drop b) j := by
  simp [streamBlock, slice, Nat.mul_succ, Nat.add_comm]

/-- A full block at the front is folded first. -/
theorem foldStream_block (hb : 0 < b) (ht : b ≤ t.length) :
    foldStream b f h t = foldStream b f (f h (t.take b)) (t.drop b) := by
  simp only [foldStream]
  rw [blocks_succ t hb ht, List.range_succ_eq_map, List.foldl_cons, List.foldl_map,
    streamBlock_zero]
  simp only [Nat.succ_eq_add_one, streamBlock_succ]

theorem streamRest_block (hb : 0 < b) (ht : b ≤ t.length) :
    streamRest b t = streamRest b (t.drop b) := by
  simp only [streamRest]
  rw [blocks_succ t hb ht, List.drop_drop, Nat.mul_succ, Nat.add_comm]

/-- Folding an appended piece goes on from what the stream left over. -/
theorem foldStream_append (hb : 0 < b) :
    foldStream b f h (t ++ d) = foldStream b f (foldStream b f h t) (streamRest b t ++ d) := by
  induction hn : t.length using Nat.strong_induction_on generalizing h t with
  | _ n ih =>
    by_cases ht : b ≤ t.length
    · rw [foldStream_block f h (t ++ d) hb (by rw [List.length_append]; omega),
        foldStream_block f h t hb ht, streamRest_block t hb ht, List.take_append_of_le_length ht,
        List.drop_append_of_le_length ht]
      exact ih (t.drop b).length (by rw [List.length_drop]; omega) _ _ rfl
    · rw [foldStream_short f h t (by omega), streamRest_short t (by omega)]

theorem streamRest_append (hb : 0 < b) :
    streamRest b (t ++ d) = streamRest b (streamRest b t ++ d) := by
  induction hn : t.length using Nat.strong_induction_on generalizing t with
  | _ n ih =>
    by_cases ht : b ≤ t.length
    · rw [streamRest_block (t ++ d) hb (by rw [List.length_append]; omega),
        streamRest_block t hb ht, List.drop_append_of_le_length ht]
      exact ih (t.drop b).length (by rw [List.length_drop]; omega) _ rfl
    · rw [streamRest_short t (by omega)]

end Fold

/-- UPDATE's loop folds the full blocks of its buffer in order and leaves the remainder. -/
theorem absorb_eq_foldStream (hs : HashState) (buf : List Byte) :
    absorb hs buf =
      (foldStream (blockSize hs.variant) blockFold hs buf,
        streamRest (blockSize hs.variant) buf) := by
  have hpos := blockSize_pos hs.variant
  induction hn : buf.length using Nat.strong_induction_on generalizing hs buf with
  | _ n ih =>
    by_cases hb : blockSize hs.variant ≤ buf.length
    · rw [absorb_block hs buf hb, foldStream_block blockFold hs buf hpos hb,
        streamRest_block buf hpos hb,
        ih _ (by rw [List.length_drop]; omega) _ _ (by rwa [blockFold_variant]) rfl,
        blockFold_variant]
    · rw [absorb_short hs buf (by omega), foldStream_short _ _ _ (by omega),
        streamRest_short _ (by omega)]

/-- Folding blocks keeps the variant. -/
@[simp] theorem foldStream_variant (b : Nat) (hs : HashState) (t : List Byte) :
    (foldStream b blockFold hs t).variant = hs.variant := by
  unfold foldStream
  induction List.range (t.length / b) generalizing hs with
  | nil => rfl
  | cons j js ih => rw [List.foldl_cons, ih, blockFold_variant]

/-- A computation just opened is that of the empty stream. -/
theorem streamEngine_nil (v : Variant) (seed : U32) :
    streamEngine v seed [] = initState v seed := by
  cases v <;> rfl

end Sys2Proof.Machine
end

