-- ==== Sys2Proof/Laws/PerInstr.lean ====
section
/-! SUPPORT. Laws stated per instruction, one lemma a constructor. -/

namespace Sys2Proof.Laws.Format

/-- The OP value of an operation (30_encoding.md R72). -/
def opCode : Operation → BitVec 4
  | .init => 0x1
  | .reset => 0x2
  | .update => 0x3
  | .finalize => 0x4

/-- The encoding of a command has RSV zero and the OP of its operation (R70, R72). -/
def Statement (i : Instr) : Prop :=
  rsvField (encode i) = 0 ∧ opField (encode i) = opCode (Machine.operation i)

/-- Every word built by `packCommand` has these fields. -/
theorem fields_of_pack (op arg : BitVec 4) (data : U32) :
    rsvField (packCommand op arg data) = 0 ∧ opField (packCommand op arg data) = op := by
  constructor
  · ext k hk
    simp only [rsvField, packCommand, BitVec.getElem_extractLsb', BitVec.getLsbD_append]
    simp [show ¬ (36 + k < 32) by omega, show ¬ (36 + k - 32 < 4) by omega,
      show 36 + k - 32 - 4 < 24 by omega]
  · ext k hk
    simp only [opField, packCommand, BitVec.getElem_extractLsb', BitVec.getLsbD_append]
    simp [show ¬ (60 + k < 32) by omega, show ¬ (60 + k - 32 < 4) by omega,
      show ¬ (60 + k - 32 - 4 < 24) by omega, show 60 + k - 32 - 4 - 24 = k by omega,
      BitVec.getLsbD_eq_getElem hk]

theorem initX86_32 (seed : U32) : Statement (.initX86_32 seed) := fields_of_pack _ _ _

theorem initX86_128 (seed : U32) : Statement (.initX86_128 seed) := fields_of_pack _ _ _

theorem initX64_128 (seed : U32) : Statement (.initX64_128 seed) := fields_of_pack _ _ _

theorem reset (seed : U32) : Statement (.reset seed) := fields_of_pack _ _ _

theorem update0 : Statement .update0 := fields_of_pack _ _ _

theorem update1 (b0 : Byte) : Statement (.update1 b0) := fields_of_pack _ _ _

theorem update2 (b0 b1 : Byte) : Statement (.update2 b0 b1) := fields_of_pack _ _ _

theorem update3 (b0 b1 b2 : Byte) : Statement (.update3 b0 b1 b2) := fields_of_pack _ _ _

theorem update4 (b0 b1 b2 b3 : Byte) : Statement (.update4 b0 b1 b2 b3) := fields_of_pack _ _ _

theorem finalize : Statement .finalize := fields_of_pack _ _ _

end Sys2Proof.Laws.Format
end

