-- ==== Sys2Proof/Laws/Step.lean ====
section
/-! SUPPORT. The cases of one step, and of a run of steps. -/

namespace Sys2Proof.Machine

theorem step_idle {s : State} (h : s.commands = []) : step s = .next s := by
  simp [step, h]

theorem step_legal {s : State} {cmd : CommandWord} {rest : List CommandWord} {i : Instr}
    (h : s.commands = cmd :: rest) (hd : decode cmd = .ok i) :
    step s = exec i (s.withCommands rest) := by
  simp [step, h, hd]

theorem step_illegal {s : State} {cmd : CommandWord} {rest : List CommandWord} {e : DecodeError}
    (h : s.commands = cmd :: rest) (hd : decode cmd = .error e) :
    step s = reject .illegal (s.withCommands rest) := by
  simp [step, h, hd]

@[simp] theorem runSteps_zero (s : State) : runSteps 0 s = .next s := rfl

theorem runSteps_succ {s t : State} (n : Nat) (h : step s = .next t) :
    runSteps (n + 1) s = runSteps n t := by
  simp [runSteps, h]

theorem runSteps_add {s t : State} (m n : Nat) (h : runSteps m s = .next t) :
    runSteps (m + n) s = runSteps n t := by
  induction m generalizing s with
  | zero =>
    simp only [runSteps_zero, Host.Outcome.next.injEq] at h
    rw [Nat.zero_add, h]
  | succ m ih =>
    cases hs : step s with
    | next u =>
      rw [runSteps_succ m hs] at h
      rw [Nat.add_right_comm, runSteps_succ (m + n) hs, ih h]
    | fault f => simp [runSteps, hs] at h
    | refused r => simp [runSteps, hs] at h

/-- One round of the host's run. -/
theorem core_run_succ (M : Host.Core) (n : Nat) (s : M.State) :
    M.run (n + 1) s = match M.step s with
      | .next t => M.run n t
      | .fault f => .fault f
      | .refused r => .refused r := rfl

/-- `runSteps` is the host's own run of the machine. -/
theorem runSteps_eq_core_run (n : Nat) (s : State) :
    runSteps n s = Host.Core.run Sys2Proof.core n s := by
  induction n generalizing s with
  | zero => rfl
  | succ n ih =>
    have hc := core_run_succ Sys2Proof.core n s
    cases hs : step s with
    | next t =>
      rw [show Sys2Proof.core.step s = .next t from hs] at hc
      rw [runSteps_succ n hs, ih t]
      exact hc.symm
    | fault f =>
      rw [show Sys2Proof.core.step s = .fault f from hs] at hc
      rw [runSteps, hs]
      exact hc.symm
    | refused r =>
      rw [show Sys2Proof.core.step s = .refused r from hs] at hc
      rw [runSteps, hs]
      exact hc.symm

end Sys2Proof.Machine
end

