-- ==== Sys2Proof/Tests/Slice0.lean ====
section
/-! SUPPORT. The model's own tests. Expected values are those of spec/95_test_vectors.md, of the
examples in the rules and of 30_encoding.md R86; the words are written from the encodings of R70 to
R76. Then one witness for the hypotheses of each statement that has any. -/

namespace Sys2Proof.Tests

open Sys2Proof.Machine

/-! ## WellFormed: an ill-formed term for each check -/

theorem test_legal_refuses_rsv_bit_36 : reservedBitsZero 0x4000001000000000 = false := by decide
theorem test_legal_refuses_rsv_bit_59 : reservedBitsZero 0x4800000000000000 = false := by decide
theorem test_legal_refuses_variant_3 : initFieldsLegal 0x1000000300000000 = false := by decide
theorem test_legal_refuses_reset_arg : resetFieldsLegal 0x2000000100000000 = false := by decide
theorem test_legal_refuses_count_5 : updateFieldsLegal 0x3000000500000000 = false := by decide
theorem test_legal_refuses_stray_bit_8 : updateFieldsLegal 0x3000000100000161 = false := by decide
theorem test_legal_refuses_finalize_arg : finalizeFieldsLegal 0x4000000100000000 = false := by decide
theorem test_legal_refuses_finalize_data : finalizeFieldsLegal 0x4000000000000001 = false := by decide
theorem test_legal_refuses_reserved_ops :
    legal 0x0000000000000000 = false ∧ legal 0x5000000000000000 = false ∧
      legal 0xf000000000000000 = false := by decide
theorem test_legal_accepts_all_payload_bits : legal 0x30000004ffffffff = true := by decide
theorem test_line_refuses_wide_seed : seedInRange 4294967296 = false := by decide
theorem test_line_refuses_wide_byte : updateOperandsInRange [256] = false := by decide
theorem test_line_refuses_fifth_byte : updateOperandsInRange [1, 2, 3, 4, 5] = false := by decide
theorem test_line_wellFormed_refuses :
    (SourceLine.reset 4294967296).wellFormed = false ∧
      (SourceLine.hash .x86_32 4294967296 []).wellFormed = false := by decide

/-! ## Decoding: words written field by field from R70 to R76 -/

theorem test_decode_initX86_32 :
    decode 0x1000000000000007 = .ok (.initX86_32 7) := by decide
theorem test_decode_initX86_128 :
    decode 0x100000019747b28c = .ok (.initX86_128 0x9747b28c) := by decide
theorem test_decode_initX64_128 :
    decode 0x10000002ffffffff = .ok (.initX64_128 0xffffffff) := by decide
theorem test_decode_reset : decode 0x200000000000002a = .ok (.reset 0x2a) := by decide
theorem test_decode_update0 : decode 0x3000000000000000 = .ok .update0 := by decide
theorem test_decode_update1 : decode 0x3000000100000061 = .ok (.update1 0x61) := by decide
theorem test_decode_update2 : decode 0x3000000200006f6c = .ok (.update2 0x6c 0x6f) := by decide
theorem test_decode_update3 :
    decode 0x3000000300636261 = .ok (.update3 0x61 0x62 0x63) := by decide
theorem test_decode_update4 :
    decode 0x3000000487654321 = .ok (.update4 0x21 0x43 0x65 0x87) := by decide
theorem test_decode_finalize : decode 0x4000000000000000 = .ok .finalize := by decide
theorem test_decode_names_each_rejection :
    decode 0x0000000000000000 = .error .reservedOp ∧
    decode 0x4000001000000000 = .error .reservedBits ∧
    decode 0x1000000f00000000 = .error .reservedVariant ∧
    decode 0x2000000100000000 = .error .argNotZero ∧
    decode 0x3000000500000000 = .error .reservedByteCount ∧
    decode 0x3000000000000001 = .error .unusedPayloadBits ∧
    decode 0x4000000000000001 = .error .dataNotZero := by decide
theorem test_decodeTableWord : decodeTableWord 64 0x3000000100000061 = some (.update1 0x61) := by
  decide

/-! ## Mixing functions (95_test_vectors.md sections 2.1 to 2.4) -/

theorem test_rotl32 :
    rotl32 0x80000001 15 = 0x0000c000 ∧ rotl32 0xdeadbeef 0 = 0xdeadbeef := by decide
theorem test_rotl64 :
    rotl64 0x0123456789abcdef 27 = 0x3c4d5e6f78091a2b ∧
      rotl64 0x0123456789abcdef 0 = 0x0123456789abcdef := by decide
theorem test_fmix32 : fmix32 1 = 0x514e28b7 ∧ fmix32 0xdeadbeef = 0x0de5c6a9 := by decide
theorem test_fmix64 :
    fmix64 1 = 0xb456bcfc34c2cb2c ∧ fmix64 0x0123456789abcdef = 0x87cbfbfe89022cea := by decide
theorem test_block32 : block32 0x9747b28c [0x21, 0x43, 0x65, 0x87] = 0x41f2283c := by decide
theorem test_tail32 :
    tail32 0x12345678 [0xff, 0xff, 0xff] = 0x8ddc27e8 ∧ tail32 0x12345678 [] = 0x12345678 := by
  decide
theorem test_final32 : final32 0x12345678 0x100000003 = [0xdd, 0x4f, 0xbf, 0x61] := by decide
theorem test_mixk128 :
    mixk128 0 1 = 0x9378f1b5 ∧ mixk128 1 1 = 0x04620f86 ∧ mixk128 2 1 = 0xa2437f92 ∧
      mixk128 3 1 = 0x62af7ffa := by decide
theorem test_blockX86_128 :
    blockX86_128 { h1 := 1, h2 := 2, h3 := 3, h4 := 4 } (selfTestKey 16) =
      { h1 := 0x4dcb5dd3, h2 := 0xe62785e1, h3 := 0x45e8b8a8, h4 := 0xe4a98e62 } := by decide
theorem test_tailX86_128 :
    tailX86_128 { h1 := 0, h2 := 0, h3 := 0, h4 := 0 } ((selfTestKey 15).map (· + 1)) =
      { h1 := 0xfff4c2ec, h2 := 0xfd01be49, h3 := 0x42032719, h4 := 0x54d3827c } := by decide
theorem test_finalX86_128 :
    finalX86_128 { h1 := 1, h2 := 2, h3 := 3, h4 := 4 } 0x10 =
      [0xf8, 0x0d, 0x15, 0x75, 0x8b, 0x78, 0xab, 0x7e, 0x82, 0x8d, 0xb2, 0x59, 0x34, 0x23, 0x49,
       0xcb] := by decide
theorem test_mixX64 :
    mixk1X64 1 = 0x34e09d0b6bdefe38 ∧ mixk2X64 1 = 0x4e26f5539bb7c37e := by decide
theorem test_blockX64_128 :
    blockX64_128 { h1 := 1, h2 := 2 } (selfTestKey 16) =
      { h1 := 0xdcac505ecdc458e9, h2 := 0x72927c51aa44045f } := by decide
theorem test_tailX64_128 :
    tailX64_128 { h1 := 0, h2 := 0 } ((selfTestKey 15).map (· + 1)) =
      { h1 := 0x84912ea0966db987, h2 := 0x3e9927eb603cdcd6 } := by decide
theorem test_finalX64_128 :
    finalX64_128 { h1 := 0, h2 := 0 } 0xffffffffffffffff =
      [0xed, 0xd6, 0x5b, 0xc6, 0x38, 0x8f, 0xc1, 0xe4, 0xaf, 0x0d, 0x62, 0x20, 0xe9, 0x8a, 0xfd,
       0x8e] := by decide

/-! ## Whole streams (section 2.5) and the assembler -/

theorem test_mh3X86_32_n9 :
    mh3 .x86_32 (selfTestKey 9) 0x9747b28c = [0xb4, 0x07, 0x97, 0x28] := by decide
theorem test_mh3X86_128_n17 :
    mh3 .x86_128 (selfTestKey 17) 0x9747b28c =
      [0x6e, 0xd7, 0x7a, 0x38, 0x20, 0x25, 0x71, 0xd2, 0xb6, 0x7f, 0x7a, 0x4e, 0x51, 0xa1, 0xd2,
       0x26] := by decide
theorem test_mh3X64_128_n17 :
    mh3 .x64_128 (selfTestKey 17) 0x9747b28c =
      [0x48, 0xca, 0xd1, 0x23, 0x96, 0x3e, 0xf0, 0x4b, 0xec, 0xfe, 0x86, 0xc1, 0x35, 0x6d, 0xb4,
       0xcd] := by decide
theorem test_text_init_case_and_comment :
    assembleText ['I', 'N', 'I', 'T', ' ', 'X', '8', '6', '_', '3', '2', ',', ' ', '0', 'x', '2',
      'a', ' ', ';', 'c'] = some [.initX86_32 0x2a] := by decide
theorem test_text_updates_string :
    assembleText ['U', 'P', 'D', 'A', 'T', 'E', 'S', ' ', '"', 'h', 'e', 'l', 'l', 'o', '"', '\n',
      'F', 'I', 'N', 'A', 'L', 'I', 'Z', 'E'] =
      some [.update4 0x68 0x65 0x6c 0x6c, .update1 0x6f, .finalize] := by decide
theorem test_text_rejects_wide_byte :
    assembleText ['U', 'P', 'D', 'A', 'T', 'E', ' ', '2', '5', '6'] = none := by decide

/-! ## One step of each command -/

/-- The engine and the responses after one step on the word `cmd`. -/
def after (e : Engine) (cmd : CommandWord) : Option (Engine × List Response) :=
  match step { engine := e, commands := [cmd], responses := [] } with
  | .next t => some (t.engine, t.responses)
  | .fault _ => none
  | .refused _ => none

/-- An open computation. -/
def opened (hs : HashState) (len : U64) (carry : List Byte) : Engine :=
  { phase := .active, var := some hs.variant, hs := some hs, len := some len, carry := some carry }

/-- A finalized engine. -/
def closed (v : Variant) : Engine :=
  { phase := .finalized, var := some v, hs := none, len := none, carry := none }

/-- The four words of X86_128, each the same. -/
def same128 (h : U32) : HashState :=
  .x86_128 { h1 := h, h2 := h, h3 := h, h4 := h }

/-- The hash words of P2 after its first block. -/
def words17 : HashState :=
  .x86_128 { h1 := 0xfe9468ee, h2 := 0x132e5ac3, h3 := 0x1c105f61, h4 := 0x1f8b82e1 }

/-- P1 row 1. -/
theorem test_initX86_32 :
    after Engine.powerOn 0x1000000000000000 =
      some (opened (.x86_32 0) 0 [], [{ status := .ok, data := 0 }]) := by decide
/-- P4 row 5: INIT abandons an open computation. -/
theorem test_initX86_32_abandons :
    after (opened (same128 5) 3 [1, 2, 3]) 0x1000000000000000 =
      some (opened (.x86_32 0) 0 [], [{ status := .ok, data := 0 }]) := by decide
/-- P4 row 3. -/
theorem test_initX86_128 :
    after Engine.powerOn 0x1000000100000005 =
      some (opened (same128 5) 0 [], [{ status := .ok, data := 0 }]) := by decide
/-- K16: the seed is zero-extended. -/
theorem test_initX64_128_zero_extends :
    after (closed .x86_32) 0x10000002ffffffff =
      some (opened (.x64_128 { h1 := 0x00000000ffffffff, h2 := 0x00000000ffffffff }) 0 [],
        [{ status := .ok, data := 0 }]) := by decide
/-- The example of R184. -/
theorem test_reset_open :
    after (opened (.x64_128 { h1 := 7, h2 := 7 }) 2 [1, 2]) 0x2000000000000009 =
      some (opened (.x64_128 { h1 := 9, h2 := 9 }) 0 [], [{ status := .ok, data := 0 }]) := by
  decide
/-- Section 2.7: RESET before INIT. -/
theorem test_reset_unconfigured :
    after Engine.powerOn 0x2000000000000000 =
      some (Engine.powerOn, [{ status := .unconfigured, data := 0 }]) := by decide
/-- P3 row 8. -/
theorem test_update0 :
    after (opened (.x64_128 { h1 := 0, h2 := 0 }) 4 [0x68, 0x65, 0x6c, 0x6c]) 0x3000000000000000 =
      some (opened (.x64_128 { h1 := 0, h2 := 0 }) 4 [0x68, 0x65, 0x6c, 0x6c],
        [{ status := .ok, data := 0 }]) := by decide
/-- Section 2.7: UPDATE with no bytes after FINALIZE. -/
theorem test_update0_finalized :
    after (closed .x86_32) 0x3000000000000000 =
      some (closed .x86_32, [{ status := .finalized, data := 0 }]) := by decide
/-- The example of R188. -/
theorem test_update1_folds :
    after (opened (.x86_32 0) 3 [0x61, 0x62, 0x63]) 0x3000000100000064 =
      some (opened (.x86_32 0x86a7049e) 4 [], [{ status := .ok, data := 0 }]) := by decide
/-- P1 row 3: the block completes and one byte waits. -/
theorem test_update2_splits_a_block :
    after (opened (.x86_32 0) 3 [0x68, 0x65, 0x6c]) 0x3000000200006f6c =
      some (opened (.x86_32 0xef13efcd) 5 [0x6f], [{ status := .ok, data := 0 }]) := by decide
/-- P1 row 2. -/
theorem test_update3_waits :
    after (opened (.x86_32 0) 0 []) 0x30000003006c6568 =
      some (opened (.x86_32 0) 3 [0x68, 0x65, 0x6c], [{ status := .ok, data := 0 }]) := by decide
/-- P2 row 5: the fourth UPDATE completes a 16-byte block. -/
theorem test_update4_folds :
    after (opened (same128 0x9747b28c) 12 (selfTestKey 12)) 0x300000040f0e0d0c =
      some (opened words17 16 [], [{ status := .ok, data := 0 }]) := by decide
/-- P1 row 4. -/
theorem test_finalizeX86_32 :
    after (opened (.x86_32 0xef13efcd) 5 [0x6f]) 0x4000000000000000 =
      some (closed .x86_32, [{ status := .ok, data := 0x248bfa47 }]) := by decide
/-- P2 row 7. -/
theorem test_finalizeX86_128 :
    after (opened words17 17 [0x10]) 0x4000000000000000 =
      some (closed .x86_128,
        [{ status := .ok, data := 0x26d2a1514e7a7fb6d2712520387ad76e }]) := by decide
/-- P3 row 3. -/
theorem test_finalizeX64_128 :
    after (opened (.x64_128 { h1 := 1, h2 := 1 }) 2 [0x61, 0x62]) 0x4000000000000000 =
      some (closed .x64_128,
        [{ status := .ok, data := 0xe62a56363f63c7699370e98468f5948c }]) := by decide
/-- Section 2.7: an illegal word beats every phase error. -/
theorem test_illegal_beats_finalized :
    after (closed .x86_32) 0x4000000000000001 =
      some (closed .x86_32, [{ status := .illegal, data := 0 }]) := by decide
/-- The host's fetch word runs first after power-on. -/
theorem test_withFetchWord_runs :
    step (State.reset.withFetchWord 64 0x3000000100000061) =
      exec (.update1 0x61) State.reset := rfl

/-! ## Witnesses: each statement's hypotheses are met -/

/-- X86_32, "abc" waiting, two commands to come, one response not taken. -/
def waiting : State :=
  { engine := opened (.x86_32 0) 3 [0x61, 0x62, 0x63]
    commands := [0x3000000100000064, 0x4000000000000000]
    responses := [{ status := .ok, data := 0 }] }

/-- A finalized X64_128 engine with the given words to come. -/
def ended (cmds : List CommandWord) : State :=
  { engine := closed .x64_128, commands := cmds, responses := [] }

/-- An open computation with nothing to come. -/
def openState (hs : HashState) (len : U64) (carry : List Byte) : State :=
  { engine := opened hs len carry, commands := [], responses := [] }

theorem witness_EncodeOfDecodeIsIdentity : decode 0x3000000100000061 = .ok (.update1 0x61) := by
  decide

theorem witness_IllegalWordIsRejected_step :
    (ended [0x0]).commands = [0x0] ∧ legal 0x0 = false := by decide

/-- One word in each of R79's cases, each at the edge of its range. -/
theorem witness_IllegalWordIsRejected_cases :
    (0x0000000000000000#64).extractLsb 63 60 = 0 ∧
    5 ≤ ((0x5000000000000000#64).extractLsb 63 60).toNat ∧
    (0x4000001000000000#64).extractLsb 59 36 ≠ 0 ∧
    ((0x1000000300000000#64).extractLsb 63 60 = 1 ∧
      3 ≤ ((0x1000000300000000#64).extractLsb 35 32).toNat) ∧
    ((0x3000000500000000#64).extractLsb 63 60 = 3 ∧
      5 ≤ ((0x3000000500000000#64).extractLsb 35 32).toNat) ∧
    ((0x3000000301000000#64).extractLsb 63 60 = 3 ∧
      ((0x3000000301000000#64).extractLsb 35 32).toNat < 4 ∧
      (0x3000000301000000#64).extractLsb 31 0 >>>
        (8 * ((0x3000000301000000#64).extractLsb 35 32).toNat) ≠ 0) ∧
    ((0x2000000100000000#64).extractLsb 63 60 = 2 ∧
      (0x2000000100000000#64).extractLsb 35 32 ≠ 0) ∧
    ((0x4000000000000001#64).extractLsb 63 60 = 4 ∧
      ((0x4000000000000001#64).extractLsb 35 32 ≠ 0 ∨
        (0x4000000000000001#64).extractLsb 31 0 ≠ 0)) := by decide

theorem witness_StepRunsTheDecodedCommand :
    waiting.commands = 0x3000000100000064 :: [0x4000000000000000] ∧
      decode 0x3000000100000064 = .ok (.update1 0x64) := by decide

theorem witness_IdleStepChangesNothing : (ended []).commands = [] := rfl

theorem witness_PowerOnStateHoldsNoValues : operation (.reset 0) ≠ .init := by decide

theorem witness_EveryStepKeepsTheInvariant : ∃ t, waiting.Inv ∧ step waiting = .next t :=
  ⟨_, by decide, rfl⟩

theorem witness_EveryStepAnswersUnderTheInvariant : waiting.Inv := by decide

theorem witness_EveryCommandGetsExactlyOneResponse :
    waiting.Inv ∧ waiting.commands = 0x3000000100000064 :: [0x4000000000000000] := by decide

theorem witness_ResponseStatusIsTheCheckOfTheWord :
    (ended [0x4000000000000001]).Inv ∧ (ended [0x4000000000000001]).commands =
      0x4000000000000001 :: [] := by decide

/-- Both clauses: a FINALIZE answered OK, and a rejected one. -/
theorem witness_ResponseDataIsZeroExceptForFinalize :
    ((openState (.x86_32 1) 0 []).deliver [0x4000000000000000]).Inv ∧
      commandCheck (openState (.x86_32 1) 0 []).engine 0x4000000000000000 = .ok ∧
      (0x4000000000000000#64).extractLsb 63 60 = 4 ∧
      (ended [0x4000000000000000]).Inv ∧
      commandCheck (ended []).engine 0x4000000000000000 ≠ .ok := by decide

/-- One word for each error status. -/
theorem witness_RejectedCommandChangesNoState :
    commandCheck waiting.engine 0x0 = .illegal ∧
    commandCheck State.reset.engine 0x3000000000000000 = .unconfigured ∧
    commandCheck (ended []).engine 0x3000000000000000 = .finalized := by decide

theorem witness_StepDependsOnlyOnEngineAndWord :
    ∃ t, waiting.engine = (openState (.x86_32 0) 3 [0x61, 0x62, 0x63]).engine ∧
      waiting.commands = 0x3000000100000064 :: [0x4000000000000000] ∧
      ((openState (.x86_32 0) 3 [0x61, 0x62, 0x63]).deliver [0x3000000100000064]).commands =
        0x3000000100000064 :: [] ∧ step waiting = .next t :=
  ⟨_, rfl, rfl, rfl, rfl⟩

theorem witness_HostChannelActsCommuteWithStep :
    ∃ t, waiting.commands = 0x3000000100000064 :: [0x4000000000000000] ∧
      step waiting = .next t ∧ waiting.responses ≠ [] :=
  ⟨_, rfl, rfl, by decide⟩

theorem witness_ResetRestoresTheInitialState :
    waiting.engine.phase ≠ .unconfigured ∧ waiting.engine.var = some .x86_32 ∧
      (ended []).engine.phase ≠ .unconfigured ∧ (ended []).engine.var = some .x64_128 := by decide

theorem witness_ResetEqualsInitWithKeptVariant :
    waiting.engine.phase = .active ∧ waiting.engine.var = some .x86_32 ∧
      (ended []).engine.phase = .finalized ∧ (ended []).engine.var = some .x64_128 := by decide

theorem witness_InitAndResetAreIdempotent :
    (∃ t, operation (.initX86_32 9) = .init ∧ exec (.initX86_32 9) waiting = .next t) ∧
      ∃ t, operation (.reset 9) = .reset ∧ exec (.reset 9) waiting = .next t :=
  ⟨⟨_, rfl, rfl⟩, ⟨_, rfl, rfl⟩⟩

/-- The longest CARRY that still leaves the block incomplete, with 0, 1, 2, 3 and 4 bytes to come. -/
theorem witness_UpdateBuffersAnIncompleteBlock :
    (openState (same128 1) 15 (selfTestKey 15)).engine.Open .x86_128 (same128 1) 15
        (selfTestKey 15) ∧ payload .update0 = some [] ∧ 15 + 0 < blockSize .x86_128 ∧
    (openState (.x86_32 1) 2 [1, 2]).engine.Open .x86_32 (.x86_32 1) 2 [1, 2] ∧
      payload (.update1 7) = some [7] ∧ 2 + 1 < blockSize .x86_32 ∧
    (openState (.x86_32 1) 1 [1]).engine.Open .x86_32 (.x86_32 1) 1 [1] ∧
      payload (.update2 7 8) = some [7, 8] ∧ 1 + 2 < blockSize .x86_32 ∧
    (openState (.x86_32 1) 0 []).engine.Open .x86_32 (.x86_32 1) 0 [] ∧
      payload (.update3 7 8 9) = some [7, 8, 9] ∧ 0 + 3 < blockSize .x86_32 ∧
    (openState (same128 1) 11 (selfTestKey 11)).engine.Open .x86_128 (same128 1) 11
        (selfTestKey 11) ∧ payload (.update4 1 2 3 4) = some [1, 2, 3, 4] ∧
      11 + 4 < blockSize .x86_128 := by
  refine ⟨⟨rfl, rfl⟩, rfl, by decide, ⟨rfl, rfl⟩, rfl, by decide, ⟨rfl, rfl⟩, rfl, by decide,
    ⟨rfl, rfl⟩, rfl, by decide, ⟨rfl, rfl⟩, rfl, by decide⟩

/-- A block completed with no byte over, and with three bytes over. -/
theorem witness_UpdateFoldsExactlyOneCompletedBlock :
    (openState (.x86_32 1) 3 [1, 2, 3]).engine.Open .x86_32 (.x86_32 1) 3 [1, 2, 3] ∧
      payload (.update1 7) = some [7] ∧ 3 < blockSize .x86_32 ∧ blockSize .x86_32 ≤ 3 + 1 ∧
      payload (.update4 1 2 3 4) = some [1, 2, 3, 4] ∧ blockSize .x86_32 ≤ 3 + 4 := by
  refine ⟨⟨rfl, rfl⟩, rfl, by decide, by decide, rfl, by decide⟩

theorem witness_UpdateOfNoBytesChangesNothing :
    (openState (.x86_32 1) 3 [1, 2, 3]).engine.Open .x86_32 (.x86_32 1) 3 [1, 2, 3] ∧
      [1, 2, 3].length < blockSize .x86_32 := ⟨⟨rfl, rfl⟩, by decide⟩

theorem witness_FinalizeX86_32ReturnsTheDigest :
    (openState (.x86_32 1) 3 [1, 2, 3]).engine.Open .x86_32 (.x86_32 1) 3 [1, 2, 3] := ⟨rfl, rfl⟩

theorem witness_FinalizeX86_128ReturnsTheDigest :
    (openState (.x86_128 { h1 := 1, h2 := 2, h3 := 3, h4 := 4 }) 1 [9]).engine.Open .x86_128
      (.x86_128 { h1 := 1, h2 := 2, h3 := 3, h4 := 4 }) 1 [9] := ⟨rfl, rfl⟩

theorem witness_FinalizeX64_128ReturnsTheDigest :
    (openState (.x64_128 { h1 := 1, h2 := 2 }) 1 [9]).engine.Open .x64_128
      (.x64_128 { h1 := 1, h2 := 2 }) 1 [9] := ⟨rfl, rfl⟩

theorem witness_SecondFinalizeIsRejected :
    ∃ t, waiting.engine.phase = .active ∧ exec .finalize waiting = .next t := ⟨_, rfl, rfl⟩

/-- One state for each clause. -/
theorem witness_PhaseErrorsAreExactlyTheTable :
    (State.reset.engine.phase = .unconfigured ∧ operation .finalize ≠ .init) ∧
    ((ended []).engine.phase = .finalized ∧ operation .update0 = .update) ∧
    (∃ t r, (operation (.reset 1) = .init ∨ (ended []).engine.phase = .active ∨
        ((ended []).engine.phase = .finalized ∧ operation (.reset 1) = .reset)) ∧
      exec (.reset 1) (ended []) = .next t ∧ t.responses = (ended []).responses ++ [r]) ∧
    ∃ t, (ended [0x3000000000000000]).commands = [0x3000000000000000] ∧
      step (ended [0x3000000000000000]) = .next t ∧
      t.responses = (ended []).responses ++ [{ status := .finalized, data := 0 }] :=
  ⟨by decide, by decide, ⟨_, _, by decide, rfl, rfl⟩, ⟨_, rfl, rfl, rfl⟩⟩

theorem witness_EveryCommandKeepsItsFrame :
    (∃ t, exec (.update1 0x64) waiting = .next t) ∧ operation (.update1 0x64) ≠ .init ∧
      operation (.update1 0x64) = .update := ⟨⟨_, rfl⟩, by decide, by decide⟩

/-- Each clause's change of phase happens: INIT at power-on, FINALIZE in ACTIVE, RESET after it. -/
theorem witness_PhaseChangesFollowTheLifeCycle :
    (∃ t, step (State.reset.deliver [0x1000000000000000]) = .next t ∧
      State.reset.engine.phase = .unconfigured ∧ t.engine.phase ≠ .unconfigured) ∧
    (∃ t, step (State.reset.deliver [0x2000000000000000]) = .next t ∧
      t.engine.phase = .unconfigured) ∧
    (∃ t, step ((openState (.x86_32 1) 0 []).deliver [0x4000000000000000]) = .next t ∧
      (openState (.x86_32 1) 0 []).engine.phase ≠ .finalized ∧ t.engine.phase = .finalized) ∧
    ∃ t, step (ended [0x2000000000000007]) = .next t ∧
      (ended [0x2000000000000007]).engine.phase = .finalized ∧ t.engine.phase ≠ .finalized :=
  ⟨⟨_, rfl, rfl, by decide⟩, ⟨_, rfl, rfl⟩, ⟨_, rfl, by decide, rfl⟩, ⟨_, rfl, rfl, by decide⟩⟩

/-- Each missing element, in states no run reaches. -/
theorem witness_ReadingAMissingValueFaults :
    let broken : Engine := { phase := .active, var := none, hs := none, len := none, carry := none }
    operation .update0 = .update ∧ operation .finalize = .finalize ∧ broken.phase = .active ∧
      broken.phase ≠ .unconfigured ∧ broken.var = none ∧ broken.hs = none ∧ broken.len = none ∧
      broken.carry = none := by decide

theorem witness_UpdatesReachTheStreamState :
    (∀ u ∈ [Instr.update1 0x61, .update0], operation u = .update) ∧
      (State.reset.deliver ((initInstr .x64_128 1 :: [Instr.update1 0x61, .update0]).map
        encode)).commands =
        (initInstr .x64_128 1 :: [Instr.update1 0x61, .update0]).map encode ++ [] := by decide

theorem witness_HashSequenceReturnsTheReferenceDigest :
    (∀ u ∈ [Instr.update1 0x61], operation u = .update) ∧
      (State.reset.deliver ((initInstr .x86_32 1 :: [Instr.update1 0x61] ++
        [Instr.finalize]).map encode)).commands =
        (initInstr .x86_32 1 :: [Instr.update1 0x61] ++ [Instr.finalize]).map encode ++ [] := by
  decide

/-- P5: one stream in two splits. -/
theorem witness_DigestIsChunkInvariant :
    let us₁ : List Instr := [.update3 0x61 0x62 0x63, .update1 0x64]
    let us₂ : List Instr := [.update0, .update4 0x61 0x62 0x63 0x64]
    (∀ u ∈ us₁, operation u = .update) ∧ (∀ u ∈ us₂, operation u = .update) ∧
      streamOf us₁ = [0x61, 0x62, 0x63, 0x64] ∧ streamOf us₂ = [0x61, 0x62, 0x63, 0x64] ∧
      (State.reset.deliver ((initInstr .x86_32 1 :: us₁ ++ [Instr.finalize]).map encode)).commands =
        (initInstr .x86_32 1 :: us₁ ++ [Instr.finalize]).map encode ++ [] ∧
      ((ended []).deliver ((initInstr .x86_32 1 :: us₂ ++ [Instr.finalize]).map encode)).commands =
        (initInstr .x86_32 1 :: us₂ ++ [Instr.finalize]).map encode ++ [] := by decide

theorem witness_HashPseudoInstructionReturnsTheDigest :
    (State.reset.deliver ((expandHash .x86_32 1 [0x61]).map encode)).commands =
      (expandHash .x86_32 1 [0x61]).map encode ++ [] := by decide

/-- The last UPDATE of five bytes. -/
theorem witness_UpdatesPseudoInstructionExpandsByFours :
    1 < (List.length [1, 2, 3, 4, 5] + 3) / 4 := by decide

/-- The greatest accepted numbers and the least rejected ones, on each form that holds a number. -/
theorem witness_AssemblerAcceptsExactlyNumbersInRange :
    assembleLine (.init .x64_128 4294967295) = some [.initX64_128 0xffffffff] ∧
    assembleLine (.init .x64_128 4294967296) = none ∧
    assembleLine (.reset 4294967295) = some [.reset 0xffffffff] ∧
    assembleLine (.reset 4294967296) = none ∧
    assembleLine (.update [1, 2, 3, 255]) = some [.update4 1 2 3 0xff] ∧
    assembleLine (.update [256]) = none ∧ assembleLine (.update [1, 2, 3, 4, 5]) = none ∧
    assembleLine (.hash .x86_32 4294967295 [7]) =
      some [.initX86_32 0xffffffff, .update1 7, .finalize] ∧
    assembleLine (.hash .x86_32 4294967296 [7]) = none := by decide

/-- One state for each clause: INIT, RESET after FINALIZE, a stream whose next byte completes a block,
and a word rejected in it. -/
theorem witness_StreamStateFollowsEveryCommand :
    decode 0x1000000200000007 = .ok (initInstr .x64_128 7) ∧
    ((ended [0x2000000000000007]).commands = [0x2000000000000007] ∧
      decode 0x2000000000000007 = .ok (.reset 7) ∧
      (ended [0x2000000000000007]).engine.phase ≠ .unconfigured ∧
      (ended [0x2000000000000007]).engine.var = some .x64_128) ∧
    (waiting.commands = 0x3000000100000064 :: [0x4000000000000000] ∧
      waiting.engine = streamEngine .x86_32 0 [0x61, 0x62, 0x63] ∧
      decode 0x3000000100000064 = .ok (.update1 0x64) ∧
      payload (.update1 0x64) = some [0x64]) ∧
    commandCheck waiting.engine 0x3000000100000164 ≠ .ok := by decide

/-- One word for each clause: an INIT, a RESET, and an UPDATE of four bytes. -/
theorem witness_OperandsAreTheFieldsOfTheWord :
    decode 0x10000002ffffffff = .ok (initInstr .x64_128 0xffffffff) ∧
    decode 0x20000000ffffffff = .ok (.reset 0xffffffff) ∧
    decode 0x3000000487654321 = .ok (.update4 0x21 0x43 0x65 0x87) ∧
    payload (.update4 0x21 0x43 0x65 0x87) = some [0x21, 0x43, 0x65, 0x87] := by decide

theorem witness_RotatesMoveEveryBit : 31 < 32 ∧ 63 < 64 := by decide

theorem witness_ZeroTailLeavesTheWordsUnchanged : ∀ b ∈ ([0, 0, 0] : List Byte), b = 0 := by decide

/-- The longest tail; the last byte position of each input word. -/
theorem witness_TailBytePlacement : (selfTestKey 15).length ≤ 15 ∧ 3 < 4 ∧ 7 < 8 := by decide

theorem witness_LittleEndianAssemblyIsTheSum :
    (selfTestKey 4).length = 4 ∧ (selfTestKey 8).length = 8 := by decide

theorem witness_DigestBytesAreAtTheirPlaces : (selfTestKey 16).length ≤ 16 ∧ 15 < 16 := by decide

theorem witness_OnlyLowLengthBitsEnterThe32BitMixes :
    (3#64).toNat % 2 ^ 32 = (0x100000003#64).toNat % 2 ^ 32 := by decide

end Sys2Proof.Tests
end

section
/-! The phase check in front of every command, and the two statements of 10_state.md about the phases
that refuse commands (R35, R37). -/

namespace Sys2Proof.Machine

/-- Every command goes through the check of its operation before anything else (44_commands.md R180). -/
theorem exec_eq_checked (i : Instr) (s : State) :
    ∃ body, exec i s = checked (operation i) s body := by
  cases i <;> exact ⟨_, rfl⟩

/-- A command whose check gives an error status is rejected with it, whatever its operands. -/
theorem exec_eq_reject {i : Instr} {s : State} {st : Status}
    (hcheck : phaseCheck (operation i) s.engine.phase = st) (herr : st ≠ .ok) :
    exec i s = reject st s := by
  obtain ⟨body, hbody⟩ := exec_eq_checked i s
  subst hcheck
  rw [hbody, checked_fail herr]

/-- Before the first INIT every other operation fails its check (60_exceptions.md R212). -/
theorem phaseCheck_unconfigured {op : Operation} (h : op ≠ .init) :
    phaseCheck op .unconfigured = .unconfigured := by
  simp [phaseCheck, h]

/-- After FINALIZE the operations on an open computation fail their check (60_exceptions.md R212). -/
theorem phaseCheck_finalized {op : Operation} (h : op = .finalize ∨ op = .update) :
    phaseCheck op .finalized = .finalized := by
  obtain rfl | rfl := h <;> rfl

theorem exec_unconfigured {i : Instr} {s : State} (hs : s.engine.phase = .unconfigured)
    (hi : operation i ≠ .init) : exec i s = reject .unconfigured s :=
  exec_eq_reject (hs ▸ phaseCheck_unconfigured hi) (by decide)

theorem exec_finalized {i : Instr} {s : State} (hs : s.engine.phase = .finalized)
    (hi : operation i = .finalize ∨ operation i = .update) : exec i s = reject .finalized s :=
  exec_eq_reject (hs ▸ phaseCheck_finalized hi) (by decide)

/-- A FINALIZE that answers an open computation leaves the engine of R192 behind. -/
theorem exec_finalize_engine_of_active {s t : State} (hs : s.engine.phase = .active)
    (h : exec .finalize s = .next t) : t.engine = finalizedEngine s.engine := by
  rw [exec_finalize] at h
  obtain ⟨c, -, -, rfl⟩ | ⟨hfail, -⟩ := performFinalize_next h
  · exact answer_engine ..
  · exact absurd (by rw [hs]; rfl) hfail

/-- Settles O28: FINALIZE leaves phase FINALIZED and no words, length or carry, and that phase fails
the check of FINALIZE and of UPDATE. -/
theorem secondFinalizeIsRejected : Obligations.SecondFinalizeIsRejected := by
  intro s t hactive hstep
  have he : t.engine = finalizedEngine s.engine := exec_finalize_engine_of_active hactive hstep
  exact ⟨by simp [he], by simp [he], by simp [he],
    fun i hi => exec_finalized (by simp [he]) hi⟩

/-- Settles O8: the power-on values are those of R37, and phase UNCONFIGURED fails the check of every
operation but INIT. -/
theorem powerOnStateHoldsNoValues : Obligations.PowerOnStateHoldsNoValues :=
  ⟨rfl, rfl, rfl, rfl, rfl, fun _ hi => exec_unconfigured rfl hi⟩

end Sys2Proof.Machine
end

section
/-! The decoder on the fields of the word: what each operation's fields must be, and that the
operands of a decoded command are those fields (30_encoding.md R70 to R77). -/

namespace Sys2Proof.Machine

/-! ## The operands of INIT and UPDATE -/

/-- The variant codes are 0, 1 and 2 (10_state.md R22). -/
theorem exists_variantCode_iff (n : Nat) : (∃ v, n = (variantCode v).toNat) ↔ n ≤ 2 := by
  constructor
  · rintro ⟨v, rfl⟩
    cases v <;> decide
  · intro h
    interval_cases n
    · exact ⟨.x86_32, rfl⟩
    · exact ⟨.x86_128, rfl⟩
    · exact ⟨.x64_128, rfl⟩

theorem initInstr_inj {v w : Variant} {a b : U32} :
    initInstr v a = initInstr w b ↔ v = w ∧ a = b := by
  cases v <;> cases w <;> simp [initInstr]

@[simp] theorem operation_initInstr (v : Variant) (seed : U32) :
    operation (initInstr v seed) = .init := by
  cases v <;> rfl

/-- The first `n` payload bytes of a DATA field (R75). -/
def payloadBytes (data : U32) (n : Nat) : List Byte :=
  (List.range n).map (payloadByte data)

@[simp] theorem payloadBytes_length (data : U32) (n : Nat) : (payloadBytes data n).length = n := by
  simp [payloadBytes]

/-- Some UPDATE carries a byte string exactly when it has at most four bytes. -/
theorem exists_updateInstr_iff (bytes : List Byte) :
    (∃ i, updateInstr bytes = some i) ↔ bytes.length ≤ 4 := by
  match bytes with
  | [] | [_] | [_, _] | [_, _, _] | [_, _, _, _] => simp [updateInstr]
  | _ :: _ :: _ :: _ :: _ :: _ => simp [updateInstr]

theorem payload_of_updateInstr {bytes : List Byte} {i : Instr} (h : updateInstr bytes = some i) :
    payload i = some bytes := by
  unfold updateInstr at h
  split at h <;> cases h <;> rfl

theorem operation_of_payload {i : Instr} {bytes : List Byte} (h : payload i = some bytes) :
    operation i = .update := by
  cases i <;> simp_all [payload, operation]

/-! ## The operations' fields -/

theorem ite_ok_eq_ok_iff {ε α : Type} {p : Prop} [Decidable p] (a i : α) (e : ε) :
    (if p then .ok a else .error e : Except ε α) = .ok i ↔ p ∧ a = i := by
  split <;> simp [*]

theorem decodeInit_eq_ok_iff (arg : BitVec 4) (data : U32) (i : Instr) :
    decodeInit arg data = .ok i ↔
      ∃ v, arg.toNat = (variantCode v).toNat ∧ initInstr v data = i := by
  constructor
  · unfold decodeInit
    split <;> rintro ⟨⟩
    · exact ⟨.x86_32, ‹_›, rfl⟩
    · exact ⟨.x86_128, ‹_›, rfl⟩
    · exact ⟨.x64_128, ‹_›, rfl⟩
  · rintro ⟨v, harg, rfl⟩
    cases v <;> simp [decodeInit, harg, variantCode, initInstr]

theorem decodeReset_eq_ok_iff (arg : BitVec 4) (data : U32) (i : Instr) :
    decodeReset arg data = .ok i ↔ arg = 0 ∧ .reset data = i :=
  ite_ok_eq_ok_iff ..

/-- For a count of 4 the shift takes all 32 bits away and leaves nothing to check (R75). -/
theorem decodeUpdate_eq_ok_iff (arg : BitVec 4) (data : U32) (i : Instr) :
    decodeUpdate arg data = .ok i ↔
      data >>> (8 * arg.toNat) = 0 ∧ updateInstr (payloadBytes data arg.toNat) = some i := by
  unfold decodeUpdate
  split
  case h_5 hn => simp [hn, payloadBytes, List.range_succ, updateInstr, BitVec.ushiftRight_eq_zero]
  case h_6 _ h0 h1 h2 h3 h4 =>
    have hlong : ¬ (payloadBytes data arg.toNat).length ≤ 4 := by
      simp only [imp_false] at h0 h1 h2 h3 h4
      rw [payloadBytes_length]
      omega
    have hnone := mt (exists_updateInstr_iff _).mp hlong
    simpa using fun _ h => hnone ⟨i, h⟩
  all_goals
    rename_i hn
    simp [hn, payloadBytes, List.range_succ, updateInstr, ite_ok_eq_ok_iff]

theorem decodeFinalize_eq_ok_iff (arg : BitVec 4) (data : U32) (i : Instr) :
    decodeFinalize arg data = .ok i ↔ arg = 0 ∧ data = 0 ∧ .finalize = i := by
  unfold decodeFinalize
  split_ifs <;> simp_all

/-! ## The word's fields -/

/-- A command word is its four fields, OP at the top (R70). -/
theorem fields_append (cmd : CommandWord) :
    opField cmd ++ rsvField cmd ++ argField cmd ++ dataField cmd = cmd := by
  have hop : opField cmd ++ rsvField cmd = cmd.extractLsb' 36 28 :=
    BitVec.extractLsb'_append_extractLsb'_eq_extractLsb' rfl
  have harg : cmd.extractLsb' 36 28 ++ argField cmd = cmd.extractLsb' 32 32 :=
    BitVec.extractLsb'_append_extractLsb'_eq_extractLsb' rfl
  rw [hop, harg]
  exact BitVec.extractLsb'_append_extractLsb' (w := 32) (len := 32)

/-- The decoder on the fields: RSV is zero, and OP selects what ARG and DATA must be and mean (R70
to R77). -/
theorem decode_eq_ok_iff (cmd : CommandWord) (i : Instr) :
    decode cmd = .ok i ↔ rsvField cmd = 0 ∧
      ((opField cmd = 1 ∧
          ∃ v, (argField cmd).toNat = (variantCode v).toNat ∧ initInstr v (dataField cmd) = i) ∨
       (opField cmd = 2 ∧ argField cmd = 0 ∧ .reset (dataField cmd) = i) ∨
       (opField cmd = 3 ∧ dataField cmd >>> (8 * (argField cmd).toNat) = 0 ∧
          updateInstr (payloadBytes (dataField cmd) (argField cmd).toNat) = some i) ∨
       (opField cmd = 4 ∧ argField cmd = 0 ∧ dataField cmd = 0 ∧ .finalize = i)) := by
  rw [← decodeInit_eq_ok_iff, ← decodeReset_eq_ok_iff, ← decodeUpdate_eq_ok_iff,
    ← decodeFinalize_eq_ok_iff]
  simp only [← BitVec.toNat_inj (x := opField cmd)]
  unfold decode
  split
  · simp_all
  · split <;> simp_all

/-! ## The operands of a decoded command -/

/-- OP is the code of the operation decoded (R72). -/
theorem opField_of_decode {cmd : CommandWord} {i : Instr} (h : decode cmd = .ok i) :
    opField cmd = Laws.Format.opCode (operation i) := by
  obtain ⟨-, ⟨hop, v, -, rfl⟩ | ⟨hop, -, rfl⟩ | ⟨hop, -, hupd⟩ | ⟨hop, -, -, rfl⟩⟩ :=
    (decode_eq_ok_iff cmd i).mp h
  · rw [hop, operation_initInstr]; rfl
  · exact hop
  · rw [hop, operation_of_payload (payload_of_updateInstr hupd)]; rfl
  · exact hop

/-- Byte k of DATA is byte k of the word (R75). -/
theorem payloadBytes_dataField (cmd : CommandWord) {n : Nat} (hn : n ≤ 4) :
    payloadBytes (dataField cmd) n = (List.range n).map fun k => cmd.extractLsb' (8 * k) 8 := by
  refine List.map_congr_left fun k hk => BitVec.extractLsb'_extractLsb'_of_le ?_
  have hlt := List.mem_range.mp hk
  omega

theorem decode_init_fields {cmd : CommandWord} {v : Variant} {seed : U32}
    (h : decode cmd = .ok (initInstr v seed)) :
    seed = dataField cmd ∧ (variantCode v).toNat = (argField cmd).toNat := by
  have hop : opField cmd = 1 := by simpa [Laws.Format.opCode] using opField_of_decode h
  obtain ⟨-, w, harg, heq⟩ := by simpa [hop] using (decode_eq_ok_iff cmd _).mp h
  obtain ⟨rfl, rfl⟩ := initInstr_inj.mp heq
  exact ⟨rfl, harg.symm⟩

theorem decode_reset_fields {cmd : CommandWord} {seed : U32}
    (h : decode cmd = .ok (.reset seed)) : seed = dataField cmd := by
  have hop : opField cmd = 2 := opField_of_decode h
  obtain ⟨-, -, heq⟩ := by simpa [hop] using (decode_eq_ok_iff cmd _).mp h
  exact heq.symm

theorem decode_update_fields {cmd : CommandWord} {i : Instr} {data : List Byte}
    (h : decode cmd = .ok i) (hi : payload i = some data) :
    (argField cmd).toNat ≤ 4 ∧ data = payloadBytes (dataField cmd) (argField cmd).toNat := by
  have hop : opField cmd = 3 := by
    simpa [operation_of_payload hi, Laws.Format.opCode] using opField_of_decode h
  obtain ⟨-, -, hupd⟩ := by simpa [hop] using (decode_eq_ok_iff cmd i).mp h
  have hlen := (exists_updateInstr_iff _).mp ⟨i, hupd⟩
  rw [payloadBytes_length] at hlen
  exact ⟨hlen, Option.some_injective _ (hi.symm.trans (payload_of_updateInstr hupd))⟩

/-- Settles O53: each operand is a field the decoder passes on, and the payload bytes of DATA are
bytes of the word. -/
theorem operandsAreTheFieldsOfTheWord : Obligations.OperandsAreTheFieldsOfTheWord := by
  intro cmd i h
  refine ⟨?_, ?_, ?_⟩
  · rintro v seed rfl
    exact decode_init_fields h
  · rintro seed rfl
    exact decode_reset_fields h
  · intro data hi
    obtain ⟨hcount, hdata⟩ := decode_update_fields h hi
    rw [hdata, payloadBytes_dataField cmd hcount]
    rfl

end Sys2Proof.Machine
end

section
/-! The legal words: those the decoder accepts, and those a row of the opcode table admits
(30_encoding.md R78, R79). -/

namespace Sys2Proof.Machine

/-! ## Legality on the fields -/

theorem append_inj_iff {m n : Nat} (a c : BitVec m) (b d : BitVec n) :
    a ++ b = c ++ d ↔ a = c ∧ b = d := by
  constructor
  · intro h
    exact ⟨by simpa only [BitVec.extractLsb'_append_eq_left] using congrArg (·.extractLsb' n m) h,
      by simpa only [BitVec.extractLsb'_append_eq_right] using congrArg (·.extractLsb' 0 n) h⟩
  · rintro ⟨rfl, rfl⟩
    rfl

theorem updateFieldsLegal_iff (cmd : CommandWord) :
    updateFieldsLegal cmd = true ↔ (argField cmd).toNat ≤ 4 ∧
      dataField cmd >>> (8 * (argField cmd).toNat) = 0 := by
  have hfields : updateFieldsLegal cmd = (decide ((argField cmd).toNat ≤ 4) &&
      ((argField cmd).toNat == 4 || dataField cmd >>> (8 * (argField cmd).toNat) == 0)) := rfl
  have hall : (argField cmd).toNat = 4 → dataField cmd >>> (8 * (argField cmd).toNat) = 0 :=
    fun h => BitVec.ushiftRight_eq_zero (by omega)
  rw [hfields]
  simp only [Bool.and_eq_true, Bool.or_eq_true, decide_eq_true_eq, beq_iff_eq,
    or_iff_right_of_imp hall]

theorem finalizeFieldsLegal_iff (cmd : CommandWord) :
    finalizeFieldsLegal cmd = true ↔ argField cmd = 0 ∧ dataField cmd = 0 := by
  have hlow : argField cmd ++ dataField cmd = cmd.extractLsb' 0 36 :=
    BitVec.extractLsb'_append_extractLsb'_eq_extractLsb' rfl
  have hfields : finalizeFieldsLegal cmd = true ↔ cmd.extractLsb' 0 36 = 0#4 ++ 0#32 := beq_iff_eq
  rw [hfields, ← hlow, append_inj_iff]
  rfl

/-- R78's predicate on the fields. -/
theorem legal_iff (cmd : CommandWord) :
    legal cmd = true ↔ rsvField cmd = 0 ∧
      ((opField cmd = 1 ∧ (argField cmd).toNat ≤ 2) ∨
       (opField cmd = 2 ∧ argField cmd = 0) ∨
       (opField cmd = 3 ∧ (argField cmd).toNat ≤ 4 ∧
          dataField cmd >>> (8 * (argField cmd).toNat) = 0) ∨
       (opField cmd = 4 ∧ argField cmd = 0 ∧ dataField cmd = 0)) := by
  have hop : opField cmd = cmd.extractLsb 63 60 := rfl
  have hreserved : reservedBitsZero cmd = true ↔ rsvField cmd = 0 := beq_iff_eq
  have hinit : initFieldsLegal cmd = true ↔ (argField cmd).toNat ≤ 2 := decide_eq_true_iff
  have hreset : resetFieldsLegal cmd = true ↔ argField cmd = 0 := beq_iff_eq
  rw [← finalizeFieldsLegal_iff, ← updateFieldsLegal_iff, ← hreserved, ← hinit, ← hreset, hop]
  simp only [← BitVec.toNat_inj (x := cmd.extractLsb 63 60)]
  unfold legal
  split <;> simp_all

/-- The decoder accepts exactly the legal words (R78). -/
theorem exists_decode_iff_legal (cmd : CommandWord) :
    (∃ i, decode cmd = .ok i) ↔ legal cmd = true := by
  have hinit : (∃ i v, (argField cmd).toNat = (variantCode v).toNat ∧
      initInstr v (dataField cmd) = i) ↔ (argField cmd).toNat ≤ 2 := by
    rw [exists_comm, ← exists_variantCode_iff]
    simp
  simp only [decode_eq_ok_iff, legal_iff, exists_and_left, exists_or, hinit, exists_eq', and_true,
    exists_updateInstr_iff, payloadBytes_length, and_comm (b := (argField cmd).toNat ≤ 4)]

theorem decode_eq_error_of_not_legal {cmd : CommandWord} (h : legal cmd = false) :
    ∃ e, decode cmd = .error e := by
  cases hd : decode cmd with
  | error e => exact ⟨e, rfl⟩
  | ok i => simp [(exists_decode_iff_legal cmd).mp ⟨i, hd⟩] at h

theorem step_of_not_legal {s : State} {cmd : CommandWord} {rest : List CommandWord}
    (hc : s.commands = cmd :: rest) (h : legal cmd = false) :
    step s = reject .illegal (s.withCommands rest) := by
  obtain ⟨e, he⟩ := decode_eq_error_of_not_legal h
  exact step_illegal hc he

/-- R79's list: a word with one of these faults in its fields is not legal. -/
theorem not_legal_of_fields {cmd : CommandWord}
    (h : opField cmd = 0 ∨ 5 ≤ (opField cmd).toNat ∨ rsvField cmd ≠ 0 ∨
      (opField cmd = 1 ∧ 3 ≤ (argField cmd).toNat) ∨
      (opField cmd = 3 ∧ 5 ≤ (argField cmd).toNat) ∨
      (opField cmd = 3 ∧ (argField cmd).toNat < 4 ∧
        dataField cmd >>> (8 * (argField cmd).toNat) ≠ 0) ∨
      (opField cmd = 2 ∧ argField cmd ≠ 0) ∨
      (opField cmd = 4 ∧ (argField cmd ≠ 0 ∨ dataField cmd ≠ 0))) :
    legal cmd = false := by
  rw [Bool.eq_false_iff, Ne, legal_iff]
  rintro ⟨hrsv, ⟨hop, harg⟩ | ⟨hop, harg⟩ | ⟨hop, harg, hdata⟩ | ⟨hop, harg, hdata⟩⟩ <;>
    rw [hop] at h
  · have hbad : 3 ≤ (argField cmd).toNat := by simpa [hrsv] using h
    omega
  · simp [hrsv, harg] at h
  · have hbad : 5 ≤ (argField cmd).toNat := by simpa [hrsv, hdata] using h
    omega
  · simp [hrsv, harg, hdata] at h

/-- Settles O5: a word that is not legal does not decode, and each of R79's faults breaks a
clause of `legal`. -/
theorem illegalWordIsRejected : Obligations.IllegalWordIsRejected :=
  ⟨fun _ _ _ hc h => step_of_not_legal hc h, fun _ h => not_legal_of_fields h⟩

/-! ## The opcode table -/

/-- The row that fixes OP and ARG, requires RSV zero, and leaves the lowest `free` bits of DATA to
the operands. -/
def fieldRow (mnemonic : String) (op arg : BitVec 4) (free : Nat) : OpcodeRow :=
  { mnemonic := mnemonic
    pattern := packCommand op arg 0
    mask :=
      BitVec.allOnes 4 ++ BitVec.allOnes 24 ++ BitVec.allOnes 4 ++ BitVec.allOnes 32 <<< free }

/-- Every row of the table is of that form. -/
theorem opcodeTable_eq : opcodeTable =
    [fieldRow "INIT.X86_32" 1 0 32, fieldRow "INIT.X86_128" 1 1 32, fieldRow "INIT.X64_128" 1 2 32,
     fieldRow "RESET" 2 0 32, fieldRow "UPDATE.0" 3 0 0, fieldRow "UPDATE.1" 3 1 8,
     fieldRow "UPDATE.2" 3 2 16, fieldRow "UPDATE.3" 3 3 24, fieldRow "UPDATE.4" 3 4 32,
     fieldRow "FINALIZE" 4 0 0] := by
  decide

theorem and_mask_eq_zero_iff (data : U32) (free : Nat) :
    data &&& BitVec.allOnes 32 <<< free = 0 ↔ data >>> free = 0 := by
  have hlt : data.toNat / 2 ^ free * 2 ^ free < 2 ^ 32 :=
    (Nat.div_mul_le_self _ _).trans_lt data.isLt
  rw [← BitVec.shiftLeft_ushiftRight, ← BitVec.toNat_inj, ← BitVec.toNat_inj (x := data >>> free),
    BitVec.toNat_shiftLeft, BitVec.toNat_ushiftRight, Nat.shiftLeft_eq, Nat.shiftRight_eq_div_pow,
    Nat.mod_eq_of_lt hlt]
  simp

theorem append_and_mask_eq_iff {a b c d : Nat} (op op' : BitVec a) (rsv rsv' : BitVec b)
    (arg arg' : BitVec c) (data data' mask : BitVec d) :
    (op ++ rsv ++ arg ++ data) &&&
        (BitVec.allOnes a ++ BitVec.allOnes b ++ BitVec.allOnes c ++ mask) =
      op' ++ rsv' ++ arg' ++ data' ↔
    op = op' ∧ rsv = rsv' ∧ arg = arg' ∧ data &&& mask = data' := by
  simp only [BitVec.and_append, append_inj_iff, BitVec.and_allOnes, and_assoc]

theorem fieldRow_admits_iff (mnemonic : String) (op arg : BitVec 4) (free : Nat)
    (cmd : CommandWord) : (fieldRow mnemonic op arg free).admits cmd = true ↔
      opField cmd = op ∧ rsvField cmd = 0 ∧ argField cmd = arg ∧ dataField cmd >>> free = 0 := by
  rw [OpcodeRow.admits, beq_iff_eq, ← and_mask_eq_zero_iff]
  conv_lhs => rw [← fields_append cmd]
  exact append_and_mask_eq_iff ..

theorem toNat_le_two_iff : ∀ arg : BitVec 4, arg.toNat ≤ 2 ↔ arg = 0 ∨ arg = 1 ∨ arg = 2 := by
  decide

theorem toNat_le_four_iff : ∀ arg : BitVec 4,
    arg.toNat ≤ 4 ↔ arg = 0 ∨ arg = 1 ∨ arg = 2 ∨ arg = 3 ∨ arg = 4 := by
  decide

/-- UPDATE's fields are legal exactly in the five rows of the byte counts (R75). -/
theorem updateFields_iff_rows (arg : BitVec 4) (data : U32) :
    arg.toNat ≤ 4 ∧ data >>> (8 * arg.toNat) = 0 ↔
      (arg = 0 ∧ data >>> 0 = 0) ∨ (arg = 1 ∧ data >>> 8 = 0) ∨ (arg = 2 ∧ data >>> 16 = 0) ∨
        (arg = 3 ∧ data >>> 24 = 0) ∨ (arg = 4 ∧ data >>> 32 = 0) := by
  rw [toNat_le_four_iff]
  constructor
  · rintro ⟨rfl | rfl | rfl | rfl | rfl, hdata⟩ <;> simpa using hdata
  · rintro (⟨rfl, hdata⟩ | ⟨rfl, hdata⟩ | ⟨rfl, hdata⟩ | ⟨rfl, hdata⟩ | ⟨rfl, hdata⟩) <;>
      simpa using hdata

theorem legal_iff_exists_row (cmd : CommandWord) :
    legal cmd = true ↔ ∃ row ∈ opcodeTable, row.admits cmd = true := by
  have hall : dataField cmd >>> 32 = 0 := BitVec.ushiftRight_eq_zero (Nat.le_refl 32)
  rw [legal_iff, toNat_le_two_iff, updateFields_iff_rows]
  simp only [opcodeTable_eq, List.mem_cons, List.not_mem_nil, or_false, exists_eq_or_imp,
    exists_eq_left, fieldRow_admits_iff, hall, BitVec.ushiftRight_zero, and_true, and_or_left,
    or_assoc, and_left_comm (a := rsvField cmd = 0)]

/-- Every row fixes all of `CMD[63:32]`. -/
theorem head_of_admits {row : OpcodeRow} (hrow : row ∈ opcodeTable) {cmd : CommandWord}
    (h : row.admits cmd = true) : row.pattern.extractLsb' 32 32 = cmd.extractLsb' 32 32 := by
  have hmask : ∀ r ∈ opcodeTable, r.mask.extractLsb' 32 32 = BitVec.allOnes 32 := by decide
  rw [← beq_iff_eq.mp h, BitVec.extractLsb'_and, hmask row hrow, BitVec.and_allOnes]

theorem opcodeTable_heads_nodup :
    (opcodeTable.map fun r => r.pattern.extractLsb' 32 32).Nodup := by
  decide

/-- Settles O4: the decoder and `legal` ask the same of the fields, the table's rows are the
alternatives of `legal`, and the upper halves of the rows' patterns differ. -/
theorem decoderAcceptsExactlyLegalWords : Obligations.DecoderAcceptsExactlyLegalWords := by
  intro cmd
  refine ⟨exists_decode_iff_legal cmd, legal_iff_exists_row cmd, fun r₁ h₁ r₂ h₂ ha₁ ha₂ => ?_⟩
  exact List.inj_on_of_nodup_map opcodeTable_heads_nodup h₁ h₂
    ((head_of_admits h₁ ha₁).trans (head_of_admits h₂ ha₂).symm)

end Sys2Proof.Machine
end

section
/-! One response per command, and its data (30_encoding.md R80, R82). -/

namespace Sys2Proof.Machine

/-! ## What the checks let through under the invariant -/

/-- UPDATE and FINALIZE pass in phase ACTIVE only (60_exceptions.md R212). -/
theorem phase_of_open_passes {op : Operation} {p : Phase} (hop : op = .update ∨ op = .finalize)
    (h : phaseCheck op p = .ok) : p = .active := by
  cases p with
  | active => rfl
  | unconfigured => obtain rfl | rfl := hop <;> cases h
  | finalized => obtain rfl | rfl := hop <;> cases h

/-- The three kinds of engine the invariant allows (10_state.md R23, R27, R28, R34, R37). -/
theorem wf_cases {e : Engine} (h : e.wf = true) :
    e = Engine.powerOn ∨
    (∃ v hs len carry, e.Open v hs len carry ∧ carry.length < blockSize v ∧
      carry.length = len.toNat % blockSize v) ∨
    ∃ v, e = { phase := .finalized, var := some v, hs := none, len := none, carry := none } := by
  obtain ⟨phase, var, hs, len, carry⟩ := e
  unfold Engine.wf at h
  split at h
  case h_1 => simp_all [Engine.powerOn]
  case h_2 v hs len carry _ _ _ _ _ =>
    simp only [Bool.and_eq_true, decide_eq_true_eq] at h
    obtain ⟨⟨htag, hshort⟩, hmod⟩ := h
    exact .inr (.inl ⟨v, hs, len, carry, ⟨by simp_all, htag⟩, hshort, hmod⟩)
  case h_3 => simp_all
  case h_4 => cases h

/-- In phase ACTIVE the elements of the computation can be read (10_state.md R34). -/
theorem openComputation_of_active {e : Engine} (hwf : e.wf = true) (hp : e.phase = .active) :
    ∃ c, openComputation e = .ok c := by
  obtain rfl | ⟨v, hs, len, carry, ⟨rfl, htag⟩, -⟩ | ⟨v, rfl⟩ := wf_cases hwf
  · cases hp
  · exact ⟨⟨hs, len, carry⟩, (openComputation_eq_ok _ _).mpr ⟨by rw [htag], rfl, rfl, rfl⟩⟩
  · cases hp

/-- RESET passes only after the first INIT, and from then on the engine has a variant (10_state.md
R34). -/
theorem var_of_reset_passes {e : Engine} (hwf : e.wf = true)
    (h : phaseCheck .reset e.phase = .ok) : ∃ v, e.var = some v := by
  obtain rfl | ⟨v, hs, len, carry, ⟨rfl, -⟩, -⟩ | ⟨v, rfl⟩ := wf_cases hwf
  · cases h
  · exact ⟨v, rfl⟩
  · exact ⟨v, rfl⟩

/-! ## One response per command -/

/-- What R82 says of the data of one response: the digest when `finalized` holds of it, else 0. -/
def DataOf (e : Engine) (finalized : Prop) (data : U128) : Prop :=
  (finalized → ∃ c, openComputation e = .ok c ∧ data = digestWord (digestOf c)) ∧
    (¬ finalized → data = 0)

theorem dataOf_zero (e : Engine) {finalized : Prop} (h : ¬ finalized) : DataOf e finalized 0 :=
  ⟨fun hf => absurd hf h, fun _ => rfl⟩

/-- A command that answers OK behind a passed check answers with the status of its check. -/
theorem checked_answers {op : Operation} {s : State} {body : Host.Outcome State Fault Refusal}
    (hbody : phaseCheck op s.engine.phase = .ok →
      ∃ e d, body = .next (s.answer e .ok d) ∧ DataOf s.engine (op = .finalize) d) :
    ∃ e d, checked op s body = .next (s.answer e (phaseCheck op s.engine.phase) d) ∧
      DataOf s.engine (phaseCheck op s.engine.phase = .ok ∧ op = .finalize) d := by
  by_cases hc : phaseCheck op s.engine.phase = .ok
  · obtain ⟨e, d, hnext, hdata⟩ := hbody hc
    exact ⟨e, d, by rw [checked_pass hc, hc, hnext], by simpa [hc] using hdata⟩
  · exact ⟨s.engine, 0, checked_fail hc body, dataOf_zero _ fun h => hc h.1⟩

/-- Under the invariant every command answers once, with the status of its check (R80, R82). -/
theorem exec_answers {s : State} (hinv : s.Inv) (i : Instr) :
    ∃ e d, exec i s = .next (s.answer e (phaseCheck (operation i) s.engine.phase) d) ∧
      DataOf s.engine
        (phaseCheck (operation i) s.engine.phase = .ok ∧ operation i = .finalize) d := by
  obtain ⟨v, seed, rfl⟩ | ⟨seed, rfl⟩ | ⟨data, hi⟩ | rfl := instr_cases i
  · rw [exec_init, operation_initInstr]
    exact checked_answers fun _ => ⟨_, 0, rfl, dataOf_zero _ (by decide)⟩
  · refine checked_answers fun hc => ?_
    obtain ⟨v, hv⟩ := var_of_reset_passes hinv hc
    exact ⟨initState v seed, 0, by rw [hv], dataOf_zero _ (by decide)⟩
  · rw [exec_update hi, operation_of_payload hi]
    refine checked_answers fun hc => ?_
    obtain ⟨c, hopen⟩ := openComputation_of_active hinv (phase_of_open_passes (.inl rfl) hc)
    exact ⟨updatedEngine s.engine c data, 0, by rw [hopen], dataOf_zero _ (by decide)⟩
  · refine checked_answers fun hc => ?_
    obtain ⟨c, hopen⟩ := openComputation_of_active hinv (phase_of_open_passes (.inr rfl) hc)
    exact ⟨finalizedEngine s.engine, digestWord (digestOf c), by rw [hopen],
      fun _ => ⟨c, hopen, rfl⟩, fun h => absurd rfl h⟩

/-- The step's form of `exec_answers`; an illegal word is rejected with data 0 (R79, R82). -/
theorem step_answers {s : State} {cmd : CommandWord} {rest : List CommandWord} (hinv : s.Inv)
    (hc : s.commands = cmd :: rest) :
    ∃ e st d, step s = .next ((s.withCommands rest).answer e st d) ∧
      DataOf s.engine (st = .ok ∧ opField cmd = 4) d := by
  cases hd : decode cmd with
  | error err => exact ⟨s.engine, .illegal, 0, step_illegal hc hd, dataOf_zero _ (by simp)⟩
  | ok i =>
    obtain ⟨e, d, hexec, hdata⟩ := exec_answers (s := s.withCommands rest) hinv i
    have hfin : opField cmd = 4 ↔ operation i = .finalize := by
      rw [opField_of_decode hd]
      cases operation i <;> decide
    exact ⟨e, _, d, (step_legal hc hd).trans hexec, by rw [hfin]; exact hdata⟩

/-- Settles O12: under the invariant no command faults, and every way to answer appends one
response. -/
theorem everyCommandGetsExactlyOneResponse : Obligations.EveryCommandGetsExactlyOneResponse := by
  intro s cmd rest hinv hc
  obtain ⟨e, st, d, hstep, -⟩ := step_answers hinv hc
  exact ⟨_, _, hstep, rfl, rfl⟩

/-- Settles O14: only a FINALIZE whose check passes answers with other data than 0, and that is the
digest. -/
theorem responseDataIsZeroExceptForFinalize : Obligations.ResponseDataIsZeroExceptForFinalize := by
  intro s cmd rest hinv hc
  obtain ⟨e, st, d, hstep, hdigest, hzero⟩ := step_answers hinv hc
  exact ⟨_, ⟨st, d⟩, hstep, rfl, hdigest, hzero⟩

end Sys2Proof.Machine
end

section
/-! Where the bytes of a little-endian word stand (00_scope.md R14), and with them the tail bytes of
X86_128 (42_x86_128.md R144). -/

namespace Sys2Proof.Machine

/-- Byte q of a piece of a byte string is the byte q places beyond the piece's start. -/
theorem slice_getD (b : List Byte) (o : Nat) {n q : Nat} (hq : q < n) :
    (slice b o n).getD q 0 = b.getD (o + q) 0 := by
  simp [slice, List.getD_eq_getElem?_getD, List.getElem?_take_of_lt hq]

/-- Byte q of a word assembled from bytes is byte q of the string, and 0 beyond its end (R14,
R55). -/
theorem le_byte {w q : Nat} (hq : 8 * q + 8 ≤ w) (b : List Byte) :
    (le w b).extractLsb' (8 * q) 8 = b.getD q 0 := by
  have hfits : 2 ^ (8 * q) * 2 ^ 8 ∣ 2 ^ w := by
    rw [← Nat.pow_add]
    exact Nat.pow_dvd_pow 2 hq
  have hbyte : leNat b / 2 ^ (8 * q) % 2 ^ 8 = (b.getD q 0).toNat := by
    rw [Nat.pow_mul]
    exact leNat_byte b q
  apply BitVec.eq_of_toNat_eq
  calc ((le w b).extractLsb' (8 * q) 8).toNat
      = leNat b % 2 ^ w / 2 ^ (8 * q) % 2 ^ 8 := by
        rw [BitVec.extractLsb'_toNat, Nat.shiftRight_eq_div_pow, le, BitVec.toNat_ofNat]
    _ = leNat b / 2 ^ (8 * q) % 2 ^ 8 := by
        rw [← Nat.mod_mul_right_div_self, Nat.mod_mod_of_dvd _ hfits, Nat.mod_mul_right_div_self]
    _ = (b.getD q 0).toNat := hbyte

/-- R144, for a byte string of any length: byte q of k_{i+1} is byte 4i + q of the string. -/
theorem tailInput128_byte (i : Fin 4) (t : List Byte) {q : Nat} (hq : q < 4) :
    (tailInput128 i t).extractLsb' (8 * q) 8 = t.getD (4 * i.val + q) 0 := by
  rw [tailInput128, le_byte (by omega), slice_getD t _ hq]

/-- Settles O46: each byte of k1 to k4 is the tail byte of its place, and the top byte of k4 would
be byte 15, beyond the end of the longest tail. -/
theorem tailBytePlacementX86_128 : Obligations.TailBytePlacementX86_128 := by
  intro t hlen
  have htop : t.getD 15 0 = 0 := List.getD_eq_default _ _ hlen
  exact ⟨fun i _ hq => tailInput128_byte i t hq,
    (tailInput128_byte 3 t (q := 3) (by decide)).trans htop⟩

end Sys2Proof.Machine
end

section
/-! Where the tail bytes of X64_128 stand (43_x64_128.md R165). -/

namespace Sys2Proof.Machine

/-- R165 for k1, for a byte string of any length. -/
theorem tailInput1X64_byte (t : List Byte) {q : Nat} (hq : q < 8) :
    (tailInput1X64 t).extractLsb' (8 * q) 8 = t.getD q 0 := by
  rw [tailInput1X64, le_byte (by omega), slice_getD t _ hq, Nat.zero_add]

/-- R165 for k2, for a byte string of any length. -/
theorem tailInput2X64_byte (t : List Byte) {q : Nat} (hq : q < 8) :
    (tailInput2X64 t).extractLsb' (8 * q) 8 = t.getD (8 + q) 0 := by
  rw [tailInput2X64, le_byte (by omega), slice_getD t _ hq]

/-- Settles O47: each byte of k1 and k2 is the tail byte of its place, and the top byte of k2 would
be byte 15, beyond the end of the longest tail. -/
theorem tailBytePlacementX64_128 : Obligations.TailBytePlacementX64_128 := by
  intro t hlen
  have htop : t.getD 15 0 = 0 := List.getD_eq_default _ _ hlen
  exact ⟨fun _ hq => tailInput1X64_byte t hq, fun _ hq => tailInput2X64_byte t hq,
    (tailInput2X64_byte t (q := 7) (by decide)).trans htop⟩

end Sys2Proof.Machine
end

section
/-! The response data of a FINALIZE: where the digest bytes stand, and the number they make of the
final words (44_commands.md R193). -/

namespace Sys2Proof.Machine

/-- In a concatenation the second string counts from the first one's length on (R14). -/
theorem leNat_append (a b : List Byte) :
    leNat (a ++ b) = leNat a + 256 ^ a.length * leNat b := by
  induction a with
  | nil => simp
  | cons x xs ih =>
    rw [List.cons_append, leNat_cons, leNat_cons, ih, List.length_cons, Nat.pow_succ', Nat.mul_add,
      Nat.mul_assoc, Nat.add_assoc]

/-- The first n bytes of a word are its value modulo 256^n: byte n is the next base-256 digit. -/
theorem leNat_firstBytes {w : Nat} (v : BitVec w) (n : Nat) :
    leNat ((List.range n).map fun m => v.extractLsb' (8 * m) 8) = v.toNat % 256 ^ n := by
  induction n with
  | zero => simp [Nat.mod_one]
  | succ n ih =>
    have hdigit : (v.extractLsb' (8 * n) 8).toNat = v.toNat / 256 ^ n % 256 := by
      rw [BitVec.extractLsb'_toNat, Nat.shiftRight_eq_div_pow, Nat.pow_mul]
    rw [List.range_succ, List.map_append, leNat_append, ih, Nat.pow_succ, Nat.mod_mul, ← hdigit]
    simp

/-- A word of whole bytes is the number its bytes make (R14). -/
theorem leNat_bytesLe {w : Nat} (hw : 8 ∣ w) (v : BitVec w) : leNat (bytesLe v) = v.toNat := by
  have hwidth : 256 ^ (w / 8) = 2 ^ w := by
    rw [show 256 = 2 ^ 8 from rfl, ← Nat.pow_mul, Nat.mul_div_cancel' hw]
  rw [bytesLe, leNat_firstBytes, hwidth, Nat.mod_eq_of_lt v.isLt]

/-- At most sixteen bytes fit the response data, so it is their number. -/
theorem digestWord_toNat {d : List Byte} (hd : d.length ≤ 16) : (digestWord d).toNat = leNat d := by
  have hfits : leNat d < 2 ^ 128 :=
    Nat.lt_of_lt_of_le (leNat_lt d) (Nat.pow_le_pow_right (n := 256) (by decide) hd)
  rw [digestWord, le, BitVec.toNat_ofNat, Nat.mod_eq_of_lt hfits]

/-- The data of an X86_32 digest (R193). -/
theorem digestWord_x86_32 (h1 : U32) : digestWord (bytesLe h1) = h1.setWidth 128 := by
  rw [digestWord, le, leNat_bytesLe (by decide), BitVec.ofNat_toNat]

/-- The data of an X86_128 digest (R193): each word stands 32 bits above the one before it. -/
theorem digestWord_x86_128_toNat (h1 h2 h3 h4 : U32) :
    (digestWord (bytesLe h1 ++ bytesLe h2 ++ bytesLe h3 ++ bytesLe h4)).toNat =
      h4.toNat * 2 ^ 96 + h3.toNat * 2 ^ 64 + h2.toNat * 2 ^ 32 + h1.toNat := by
  have hword (h : U32) : leNat (bytesLe h) = h.toNat := leNat_bytesLe (by decide) h
  rw [digestWord_toNat (by simp)]
  simp only [leNat_append, hword, List.length_append, bytesLe_length]
  omega

/-- The data of an X64_128 digest (R193): H2 stands 64 bits above H1. -/
theorem digestWord_x64_128_toNat (h1 h2 : U64) :
    (digestWord (bytesLe h1 ++ bytesLe h2)).toNat = h2.toNat * 2 ^ 64 + h1.toNat := by
  have hword (h : U64) : leNat (bytesLe h) = h.toNat := leNat_bytesLe (by decide) h
  rw [digestWord_toNat (by simp), leNat_append, hword, hword, bytesLe_length]
  omega

/-- The digest has the bytes of the variant's final words: one or four of 4, or two of 8. -/
theorem finalMix_length (hs : HashState) (len : U64) :
    (finalMix hs len).length = digestLength hs.variant := by
  cases hs with
  | x86_32 h1 => exact bytesLe_length _
  | x86_128 h => simp [finalMix, finalX86_128, HashState.variant, digestLength]
  | x64_128 h => simp [finalMix, finalX64_128, HashState.variant, digestLength]

/-- Settles O49: the data is the 128-bit little-endian word of the digest, so its byte k is the
digest's, and the bytes of the final words count from the places where they begin. -/
theorem digestBytesAreAtTheirPlaces : Obligations.DigestBytesAreAtTheirPlaces :=
  ⟨fun d _ _ hk => le_byte (by omega) d, digestWord_x86_32, digestWord_x86_128_toNat,
    digestWord_x64_128_toNat, finalMix_length⟩

end Sys2Proof.Machine
end

section
/-! The check of a command as R212 writes it on the word, and the statements of 60_exceptions.md about
the status of the response, rejected commands and phase errors (R211 to R213). -/

namespace Sys2Proof.Machine

/-! ## The check of a word -/

/-- On a word that does not decode, R212's check is E_ILLEGAL in every phase. -/
theorem commandCheck_of_decode_error {cmd : CommandWord} {err : DecodeError} (e : Engine)
    (h : decode cmd = .error err) : commandCheck e cmd = .illegal := by
  have hlegal : legal cmd = false := by
    simp [Bool.eq_false_iff, Ne, ← exists_decode_iff_legal, h]
  simp [commandCheck, hlegal]

/-- On a word that decodes, R212's check is the phase check of the operation decoded. -/
theorem commandCheck_of_decode {cmd : CommandWord} {i : Instr} (e : Engine)
    (h : decode cmd = .ok i) : commandCheck e cmd = phaseCheck (operation i) e.phase := by
  have hlegal : legal cmd = true := (exists_decode_iff_legal cmd).mp ⟨i, h⟩
  have hop : cmd.extractLsb 63 60 = Laws.Format.opCode (operation i) := opField_of_decode h
  unfold commandCheck phaseCheck
  rw [hlegal, hop]
  cases operation i <;> simp [Laws.Format.opCode]

/-- Settles O13: an illegal word does not decode and is answered with E_ILLEGAL; a legal one is
answered with the phase check of its operation, which is the check of the word. -/
theorem responseStatusIsTheCheckOfTheWord : Obligations.ResponseStatusIsTheCheckOfTheWord := by
  intro s cmd rest hinv hc
  cases hd : decode cmd with
  | error err =>
    rw [commandCheck_of_decode_error _ hd]
    exact ⟨_, 0, step_illegal hc hd, rfl⟩
  | ok i =>
    obtain ⟨e, d, hexec, -⟩ := exec_answers (s := s.withCommands rest) hinv i
    rw [commandCheck_of_decode _ hd]
    exact ⟨_, d, (step_legal hc hd).trans hexec, rfl⟩

/-- Settles O15: an illegal word is rejected by the step itself, a legal one by the check in front of
its command; both by the one shared `reject`. -/
theorem rejectedCommandChangesNoState : Obligations.RejectedCommandChangesNoState := by
  intro s cmd rest hc herr
  cases hd : decode cmd with
  | error err =>
    rw [commandCheck_of_decode_error _ hd]
    exact step_illegal hc hd
  | ok i =>
    rw [commandCheck_of_decode _ hd] at herr ⊢
    exact (step_legal hc hd).trans (exec_eq_reject rfl herr)

/-! ## Phase errors -/

/-- In every state, a command that answers does so with the status of its phase check. -/
theorem exec_next {i : Instr} {s t : State} (h : exec i s = .next t) :
    ∃ e d, t = s.answer e (phaseCheck (operation i) s.engine.phase) d := by
  obtain ⟨v, seed, rfl⟩ | ⟨seed, rfl⟩ | ⟨data, hi⟩ | rfl := instr_cases i
  · rw [exec_init, performInit_eq] at h
    cases h
    exact ⟨_, _, by rw [operation_initInstr, phaseCheck_init]⟩
  · obtain ⟨v, hpass, -, rfl⟩ | ⟨-, rfl⟩ := performReset_next h
    · exact ⟨_, _, by rw [operation, hpass]⟩
    · exact ⟨_, _, rfl⟩
  · rw [exec_update hi] at h
    rw [operation_of_payload hi]
    obtain ⟨c, hpass, -, rfl⟩ | ⟨-, rfl⟩ := performUpdate_next h
    · exact ⟨_, _, by rw [hpass]⟩
    · exact ⟨_, _, rfl⟩
  · obtain ⟨c, hpass, -, rfl⟩ | ⟨-, rfl⟩ := performFinalize_next h
    · exact ⟨_, _, by rw [operation, hpass]⟩
    · exact ⟨_, _, rfl⟩

theorem exec_response_status {i : Instr} {s t : State} {r : Response} (h : exec i s = .next t)
    (hr : t.responses = s.responses ++ [r]) :
    r.status = phaseCheck (operation i) s.engine.phase := by
  obtain ⟨e, d, rfl⟩ := exec_next h
  obtain rfl := by simpa using hr
  rfl

/-- R211's table, where it has no error. -/
theorem phaseCheck_ok {op : Operation} {p : Phase}
    (h : op = .init ∨ p = .active ∨ p = .finalized ∧ op = .reset) : phaseCheck op p = .ok := by
  obtain rfl | rfl | ⟨rfl, rfl⟩ := h
  · exact phaseCheck_init p
  · cases op <;> rfl
  · rfl

theorem step_response_status_of_not_legal {s t : State} {cmd : CommandWord}
    {rest : List CommandWord} {r : Response} (hc : s.commands = cmd :: rest)
    (hlegal : legal cmd = false) (h : step s = .next t) (hr : t.responses = s.responses ++ [r]) :
    r.status = .illegal := by
  rw [step_of_not_legal hc hlegal] at h
  cases h
  obtain rfl := by simpa using hr
  rfl

/-- Settles O29: the two rejecting phases fail the check, every other pair of operation and phase
passes it, and a word that is not legal is answered with E_ILLEGAL instead. -/
theorem phaseErrorsAreExactlyTheTable : Obligations.PhaseErrorsAreExactlyTheTable := by
  refine ⟨fun i s => ⟨exec_unconfigured, fun hp hi => exec_finalized hp hi.symm,
    fun hok t r h hr => (exec_response_status h hr).trans (phaseCheck_ok hok)⟩, ?_⟩
  intro s t cmd rest r hc h hr hphase
  by_contra hillegal
  have hstatus : r.status = .illegal :=
    step_response_status_of_not_legal hc (Bool.eq_false_iff.mpr hillegal) h hr
  simp [hstatus] at hphase

end Sys2Proof.Machine
end

section
/-! The encoder on the fields of the word, and that it and the decoder undo each other
(30_encoding.md R70 to R78, R86). -/

namespace Sys2Proof.Machine

/-! ## Words built from fields -/

theorem append_four_inj_iff {a b c d : Nat} (op op' : BitVec a) (rsv rsv' : BitVec b)
    (arg arg' : BitVec c) (data data' : BitVec d) :
    op ++ rsv ++ arg ++ data = op' ++ rsv' ++ arg' ++ data' ↔
      op = op' ∧ rsv = rsv' ∧ arg = arg' ∧ data = data' := by
  simp only [append_inj_iff, and_assoc]

/-- A word is built from an OP, ARG and DATA exactly when these are its fields and RSV is zero
(R70). -/
theorem packCommand_eq_iff (op arg : BitVec 4) (data : U32) (cmd : CommandWord) :
    packCommand op arg data = cmd ↔
      opField cmd = op ∧ rsvField cmd = 0 ∧ argField cmd = arg ∧ dataField cmd = data := by
  rw [eq_comm]
  conv_lhs => rw [← fields_append cmd]
  exact append_four_inj_iff ..

/-- A concatenation is the number of its left part, above the width of its right part. -/
theorem append_toNat {m n : Nat} (x : BitVec m) (y : BitVec n) :
    (x ++ y).toNat = x.toNat * 2 ^ n + y.toNat := by
  rw [BitVec.toNat_append, ← Nat.shiftLeft_add_eq_or_of_lt y.isLt, Nat.shiftLeft_eq]

/-- The DATA field of an UPDATE is the little-endian word of its four bytes (R75). -/
theorem packPayload_eq_le (b0 b1 b2 b3 : Byte) :
    packPayload b0 b1 b2 b3 = le 32 [b0, b1, b2, b3] := by
  have hfits : leNat [b0, b1, b2, b3] < 2 ^ 32 :=
    (leNat_lt _).trans_eq (by simp)
  apply BitVec.eq_of_toNat_eq
  rw [le, BitVec.toNat_ofNat, Nat.mod_eq_of_lt hfits]
  simp only [packPayload, append_toNat, leNat_cons, leNat_nil]
  omega

/-- The first n bytes of DATA, when nothing stands above them, make DATA (R75). -/
theorem le_payloadBytes {data : U32} {n : Nat} (h : data >>> (8 * n) = 0) :
    le 32 (payloadBytes data n) = data := by
  have hlt : data.toNat < 256 ^ n := by
    have hdiv : data.toNat / 256 ^ n = 0 := by
      simpa [Nat.shiftRight_eq_div_pow, Nat.pow_mul] using congrArg BitVec.toNat h
    exact (Nat.div_eq_zero_iff_lt (Nat.pow_pos (by decide))).mp hdiv
  have hbytes : leNat (payloadBytes data n) = data.toNat := by
    rw [← Nat.mod_eq_of_lt hlt]
    exact leNat_firstBytes data n
  rw [le, hbytes, BitVec.ofNat_toNat, BitVec.setWidth_eq]

/-- The bytes of a little-endian word are the bytes it was made of, where it is wide enough for them
(R14). -/
theorem firstBytes_le {w : Nat} {bytes : List Byte} (h : 8 * bytes.length ≤ w) :
    ((List.range bytes.length).map fun m => (le w bytes).extractLsb' (8 * m) 8) = bytes := by
  refine List.ext_getElem (by simp) fun q hq _ => ?_
  have hlt : q < bytes.length := by simpa using hq
  simp [le_byte (w := w) (q := q) (by omega), hlt]

theorem payloadBytes_le {bytes : List Byte} (h : bytes.length ≤ 4) :
    payloadBytes (le 32 bytes) bytes.length = bytes :=
  firstBytes_le (by omega)

/-- A word made of n bytes has nothing above them. -/
theorem le_ushiftRight (bytes : List Byte) : le 32 bytes >>> (8 * bytes.length) = 0 := by
  have hlt : leNat bytes % 2 ^ 32 < 2 ^ (8 * bytes.length) := by
    rw [Nat.pow_mul]
    exact (Nat.mod_le _ _).trans_lt (leNat_lt bytes)
  apply BitVec.eq_of_toNat_eq
  rw [BitVec.toNat_ushiftRight, Nat.shiftRight_eq_div_pow, le, BitVec.toNat_ofNat,
    Nat.div_eq_of_lt hlt]
  rfl

/-! ## The encoder on the operands -/

theorem updateInstr_of_payload {i : Instr} {bytes : List Byte} (h : payload i = some bytes) :
    updateInstr bytes = some i := by
  cases i with
  | update0 | update1 | update2 | update3 | update4 =>
    cases h
    rfl
  | _ => cases h

theorem payload_length_le {i : Instr} {bytes : List Byte} (h : payload i = some bytes) :
    bytes.length ≤ 4 :=
  (exists_updateInstr_iff bytes).mp ⟨i, updateInstr_of_payload h⟩

theorem encode_initInstr (v : Variant) (seed : U32) :
    encode (initInstr v seed) = packCommand 1 ((variantCode v).setWidth 4) seed := by
  cases v <;> rfl

/-- ARG is the number of bytes, DATA their little-endian word (R75). -/
theorem encode_of_payload {i : Instr} {bytes : List Byte} (h : payload i = some bytes) :
    encode i = packCommand 3 (BitVec.ofNat 4 bytes.length) (le 32 bytes) := by
  cases i with
  | update0 | update1 | update2 | update3 | update4 =>
    cases h
    simp [encode, packPayload_eq_le, le]
  | _ => cases h

theorem variantCode_setWidth_toNat (v : Variant) :
    ((variantCode v).setWidth 4).toNat = (variantCode v).toNat := by
  cases v <;> rfl

/-- Settles O2: the fields of an encoded command are the ones its operation packed, and the bytes of
an UPDATE's DATA are its payload. -/
theorem decodeOfEncodeIsIdentity : Obligations.DecodeOfEncodeIsIdentity := by
  intro i
  rw [decode_eq_ok_iff]
  obtain ⟨v, seed, rfl⟩ | ⟨seed, rfl⟩ | ⟨bytes, hi⟩ | rfl := instr_cases i
  · obtain ⟨hop, hrsv, harg, hdata⟩ :=
      (packCommand_eq_iff _ _ _ _).mp (encode_initInstr v seed).symm
    exact ⟨hrsv, .inl ⟨hop, v, by rw [harg, variantCode_setWidth_toNat], by rw [hdata]⟩⟩
  · obtain ⟨hop, hrsv, harg, hdata⟩ := (packCommand_eq_iff 2 0 seed _).mp rfl
    exact ⟨hrsv, .inr (.inl ⟨hop, harg, congrArg Instr.reset hdata⟩)⟩
  · obtain ⟨hop, hrsv, harg, hdata⟩ := (packCommand_eq_iff _ _ _ _).mp (encode_of_payload hi).symm
    have hlen := payload_length_le hi
    have hcount : (argField (encode i)).toNat = bytes.length := by
      rw [harg, BitVec.toNat_ofNat, Nat.mod_eq_of_lt (by omega)]
    refine ⟨hrsv, .inr (.inr (.inl ⟨hop, ?_, ?_⟩))⟩
    · rw [hcount, hdata, le_ushiftRight]
    · rw [hcount, hdata, payloadBytes_le hlen, updateInstr_of_payload hi]
  · obtain ⟨hop, hrsv, harg, hdata⟩ := (packCommand_eq_iff 4 0 0 _).mp rfl
    exact ⟨hrsv, .inr (.inr (.inr ⟨hop, harg, hdata, rfl⟩))⟩

/-- Settles O3: the decoder fixes RSV, OP and ARG of each command, and DATA is its seed, the word of
its payload, or zero. -/
theorem encodeOfDecodeIsIdentity : Obligations.EncodeOfDecodeIsIdentity := by
  intro cmd i h
  obtain ⟨hrsv, ⟨hop, v, harg, rfl⟩ | ⟨hop, harg, rfl⟩ | ⟨hop, hhigh, hupd⟩ |
    ⟨hop, harg, hdata, rfl⟩⟩ := (decode_eq_ok_iff cmd i).mp h
  · rw [encode_initInstr, packCommand_eq_iff]
    exact ⟨hop, hrsv, BitVec.eq_of_toNat_eq (harg.trans (variantCode_setWidth_toNat v).symm), rfl⟩
  · exact (packCommand_eq_iff 2 0 _ cmd).mpr ⟨hop, hrsv, harg, rfl⟩
  · rw [encode_of_payload (payload_of_updateInstr hupd), payloadBytes_length, le_payloadBytes hhigh,
      packCommand_eq_iff]
    exact ⟨hop, hrsv, by simp, rfl⟩
  · exact (packCommand_eq_iff 4 0 0 cmd).mpr ⟨hop, hrsv, harg, hdata⟩

/-- Settles O1: the listed words by evaluation; an illegal word decodes to no command at all. -/
theorem specExampleWordsAssembleAndDecode : Obligations.SpecExampleWordsAssembleAndDecode := by
  refine ⟨by decide, fun cmd hcmd => ?_⟩
  have hlegal : legal cmd = false := by
    obtain rfl | rfl | rfl | rfl := by simpa using hcmd
    all_goals decide
  refine ⟨hlegal, fun i hi => ?_⟩
  rw [(exists_decode_iff_legal cmd).mp ⟨i, hi⟩] at hlegal
  cases hlegal

end Sys2Proof.Machine
end

section
/-! What a command and a command word can do, said once as a relation on the engine alone, and the
statements that follow from it: noninterference, the frame and the life cycle (44_commands.md
section 1; 10_state.md sections 2 and 8). -/

namespace Sys2Proof.Machine

/-! ## The effect of a command -/

/-- What command `i` does to the engine `e` when it answers: the engine after it, the status and the
data of the response. -/
inductive Effect (i : Instr) (e : Engine) : Engine → Status → U128 → Prop
  | rejected (hcheck : phaseCheck (operation i) e.phase ≠ .ok) :
      Effect i e e (phaseCheck (operation i) e.phase) 0
  | opened (v : Variant) (seed : U32) (hi : i = initInstr v seed) :
      Effect i e (initState v seed) .ok 0
  | reopened (v : Variant) (seed : U32) (hi : i = .reset seed) (hphase : e.phase ≠ .unconfigured)
      (hvar : e.var = some v) : Effect i e (initState v seed) .ok 0
  | updated (data : List Byte) (c : Computation) (hi : payload i = some data)
      (hphase : e.phase = .active) (hopen : openComputation e = .ok c) :
      Effect i e (updatedEngine e c data) .ok 0
  | finalized (c : Computation) (hi : i = .finalize) (hphase : e.phase = .active)
      (hopen : openComputation e = .ok c) :
      Effect i e (finalizedEngine e) .ok (digestWord (digestOf c))

/-- RESET passes in the two phases after the first INIT (60_exceptions.md R212). -/
theorem phaseCheck_reset_eq_ok_iff (p : Phase) :
    phaseCheck .reset p = .ok ↔ p ≠ .unconfigured := by
  cases p <;> decide

/-- A command that answers has one of the effects. -/
theorem effect_of_exec {i : Instr} {s t : State} (h : exec i s = .next t) :
    ∃ e st d, Effect i s.engine e st d ∧ t = s.answer e st d := by
  obtain ⟨v, seed, rfl⟩ | ⟨seed, rfl⟩ | ⟨data, hi⟩ | rfl := instr_cases i
  · rw [exec_init, performInit_eq] at h
    cases h
    exact ⟨_, _, _, .opened v seed rfl, rfl⟩
  · obtain ⟨v, hpass, hvar, rfl⟩ | ⟨hfail, rfl⟩ := performReset_next h
    · exact ⟨_, _, _, .reopened v seed rfl ((phaseCheck_reset_eq_ok_iff _).mp hpass) hvar, rfl⟩
    · exact ⟨_, _, _, .rejected hfail, rfl⟩
  · rw [exec_update hi] at h
    obtain ⟨c, hpass, hopen, rfl⟩ | ⟨hfail, rfl⟩ := performUpdate_next h
    · exact ⟨_, _, _, .updated data c hi (phase_of_open_passes (.inl rfl) hpass) hopen, rfl⟩
    · rw [← operation_of_payload hi] at hfail ⊢
      exact ⟨_, _, _, .rejected hfail, rfl⟩
  · obtain ⟨c, hpass, hopen, rfl⟩ | ⟨hfail, rfl⟩ := performFinalize_next h
    · exact ⟨_, _, _, .finalized c rfl (phase_of_open_passes (.inr rfl) hpass) hopen, rfl⟩
    · exact ⟨_, _, _, .rejected hfail, rfl⟩

/-- Each effect is what the command does, whatever the channels hold. -/
theorem exec_of_effect {i : Instr} {s : State} {e : Engine} {st : Status} {d : U128}
    (h : Effect i s.engine e st d) : exec i s = .next (s.answer e st d) := by
  cases h with
  | rejected hcheck => exact exec_eq_reject rfl hcheck
  | opened v seed hi => rw [hi, exec_init, performInit_eq]
  | reopened v seed hi hphase hvar =>
    have hpass := (phaseCheck_reset_eq_ok_iff _).mpr hphase
    rw [hi, exec_reset, performReset, checked_pass hpass, hvar]
  | updated data c hi hphase hopen =>
    have hpass := phaseCheck_ok (op := .update) (.inr (.inl hphase))
    rw [exec_update hi, performUpdate, checked_pass hpass, hopen]
  | finalized c hi hphase hopen =>
    have hpass := phaseCheck_ok (op := .finalize) (.inr (.inl hphase))
    rw [hi, exec_finalize, performFinalize, checked_pass hpass, hopen]

/-! ## The effect of a command word -/

/-- What the word `cmd` does to the engine `e` when it is answered. -/
inductive WordEffect (cmd : CommandWord) (e : Engine) : Engine → Status → U128 → Prop
  | illegal (err : DecodeError) (hdecode : decode cmd = .error err) : WordEffect cmd e e .illegal 0
  | command (i : Instr) (hdecode : decode cmd = .ok i) {e' : Engine} {st : Status} {d : U128}
      (heffect : Effect i e e' st d) : WordEffect cmd e e' st d

section

variable {s : State} {cmd : CommandWord} {rest : List CommandWord}

theorem wordEffect_of_step {t : State} (hc : s.commands = cmd :: rest) (h : step s = .next t) :
    ∃ e st d, WordEffect cmd s.engine e st d ∧ t = (s.withCommands rest).answer e st d := by
  cases hd : decode cmd with
  | error err =>
    rw [step_illegal hc hd] at h
    cases h
    exact ⟨_, _, _, .illegal err hd, rfl⟩
  | ok i =>
    rw [step_legal hc hd] at h
    obtain ⟨e, st, d, heffect, rfl⟩ := effect_of_exec h
    exact ⟨e, st, d, .command i hd heffect, rfl⟩

theorem step_of_wordEffect {e : Engine} {st : Status} {d : U128} (hc : s.commands = cmd :: rest)
    (h : WordEffect cmd s.engine e st d) :
    step s = .next ((s.withCommands rest).answer e st d) := by
  cases h with
  | illegal err hd => exact step_illegal hc hd
  | command i hd heffect => exact (step_legal hc hd).trans (exec_of_effect heffect)

end

/-! ## Noninterference -/

/-- Settles O16: the effect of a word is a relation on the engine and the word alone. -/
theorem stepDependsOnlyOnEngineAndWord : Obligations.StepDependsOnlyOnEngineAndWord := by
  intro s₁ s₂ cmd rest₁ rest₂ t₁ heng hc₁ hc₂ h
  obtain ⟨e, st, d, heffect, rfl⟩ := wordEffect_of_step hc₁ h
  exact ⟨_, ⟨st, d⟩, step_of_wordEffect hc₂ (heng ▸ heffect), rfl, rfl, rfl⟩

/-- Settles O17: the word waiting and the engine are the same after either act, and the act touches
the other end of its channel. -/
theorem hostChannelActsCommuteWithStep : Obligations.HostChannelActsCommuteWithStep := by
  intro s t cmd rest hc h
  obtain ⟨e, st, d, heffect, rfl⟩ := wordEffect_of_step hc h
  refine ⟨fun later => ?_, fun hne => ?_⟩
  · have hlater : (s.deliver later).commands = cmd :: (rest ++ later) := by simp [hc]
    exact step_of_wordEffect hlater heffect
  · obtain ⟨engine, commands, responses⟩ := s
    obtain ⟨r, rs, rfl⟩ := List.exists_cons_of_ne_nil hne
    exact ⟨step_of_wordEffect hc heffect, rfl⟩

/-! ## Frame and life cycle -/

theorem Effect.keeps_engine {i : Instr} {e e' : Engine} {st : Status} {d : U128}
    (h : Effect i e e' st d) (herr : st ≠ .ok) : e' = e := by
  cases h with
  | rejected => rfl
  | _ => exact absurd rfl herr

theorem Effect.keeps_var {i : Instr} {e e' : Engine} {st : Status} {d : U128}
    (h : Effect i e e' st d) (hi : operation i ≠ .init) : e'.var = e.var := by
  cases h with
  | opened v seed hinit => exact absurd (hinit ▸ operation_initInstr v seed) hi
  | reopened v seed _ _ hvar => exact hvar.symm
  | _ => rfl

theorem Effect.keeps_phase {i : Instr} {e e' : Engine} {st : Status} {d : U128}
    (h : Effect i e e' st d) (hi : operation i = .update) : e'.phase = e.phase := by
  cases h with
  | opened v seed hinit => simp [hinit] at hi
  | reopened v seed hreset => simp [hreset, operation] at hi
  | finalized c hfin => simp [hfin, operation] at hi
  | _ => rfl

/-- Settles O30: an effect is on the engine alone, and each clause holds of every effect. -/
theorem everyCommandKeepsItsFrame : Obligations.EveryCommandKeepsItsFrame := by
  intro i s t h
  obtain ⟨e, st, d, heffect, rfl⟩ := effect_of_exec h
  exact ⟨rfl, heffect.keeps_var, heffect.keeps_phase, ⟨st, d⟩, rfl, heffect.keeps_engine⟩

/-- The changes of PHASE a word can make (10_state.md R21). -/
theorem WordEffect.phase_cases {cmd : CommandWord} {e e' : Engine} {st : Status} {d : U128}
    (h : WordEffect cmd e e' st d) :
    e'.phase = e.phase ∨
    (e'.phase = .active ∧ ∃ v seed, decode cmd = .ok (initInstr v seed)) ∨
    (e'.phase = .active ∧ e.phase ≠ .unconfigured ∧ ∃ seed, decode cmd = .ok (.reset seed)) ∨
    (e'.phase = .finalized ∧ e.phase = .active ∧ decode cmd = .ok .finalize) := by
  cases h with
  | illegal => exact .inl rfl
  | command i hd heffect =>
    cases heffect with
    | rejected => exact .inl rfl
    | opened v seed hi => exact .inr (.inl ⟨rfl, v, seed, hi ▸ hd⟩)
    | reopened v seed hi hphase => exact .inr (.inr (.inl ⟨rfl, hphase, seed, hi ▸ hd⟩))
    | updated => exact .inl rfl
    | finalized c hi hphase => exact .inr (.inr (.inr ⟨rfl, hphase, hi ▸ hd⟩))

/-- Settles O31: each of the four changes of PHASE against each clause. -/
theorem phaseChangesFollowTheLifeCycle : Obligations.PhaseChangesFollowTheLifeCycle := by
  intro s t cmd rest hc h
  obtain ⟨e, st, d, heffect, rfl⟩ := wordEffect_of_step hc h
  rw [answer_engine]
  obtain hkept | ⟨hact, hinit⟩ | ⟨hact, hconf, hreset⟩ | ⟨hfin, hact, hd⟩ := heffect.phase_cases
  · rw [hkept]
    exact ⟨id, fun h hne => absurd h hne, fun hne h => absurd h hne, fun h hne => absurd h hne⟩
  · simp [hact, hinit]
  · simp [hact, hconf, hreset]
  · simp [hfin, hact, hd]

/-! ## Steps and single commands -/

/-- Settles O6: the case of a word that decodes. -/
theorem stepRunsTheDecodedCommand : Obligations.StepRunsTheDecodedCommand :=
  fun _ _ _ _ hc hd => step_legal hc hd

/-- Settles O7: the case of an empty command channel. -/
theorem idleStepChangesNothing : Obligations.IdleStepChangesNothing :=
  fun _ hc => step_idle hc

/-- Settles O18: INIT passes its check in every phase and leaves `initState`. -/
theorem initConstructsFromTheSeed : Obligations.InitConstructsFromTheSeed :=
  fun _ seed => ⟨exec_of_effect (.opened .x86_32 seed rfl),
    exec_of_effect (.opened .x86_128 seed rfl), exec_of_effect (.opened .x64_128 seed rfl)⟩

/-- Settles O19: RESET leaves `initState` of the kept variant, which is the listed engine. -/
theorem resetRestoresTheInitialState : Obligations.ResetRestoresTheInitialState := by
  intro s v seed hphase hvar
  rw [exec_of_effect (.reopened v seed rfl hphase hvar)]
  cases v <;> rfl

/-- Settles O20: both commands leave `initState` of the variant and answer OK. -/
theorem resetEqualsInitWithKeptVariant : Obligations.ResetEqualsInitWithKeptVariant := by
  intro s v seed hphase hvar
  have hconf : s.engine.phase ≠ .unconfigured := by
    obtain h | h := hphase <;> simp [h]
  rw [exec_of_effect (.reopened v seed rfl hconf hvar), exec_of_effect (.opened v seed rfl)]

/-- An INIT or RESET has its effect again on the engine it leaves. -/
theorem Effect.repeats {i : Instr} {e e' : Engine} {st : Status} {d : U128}
    (h : Effect i e e' st d) (hi : operation i = .init ∨ operation i = .reset) :
    Effect i e' e' st d := by
  cases h with
  | rejected hcheck => exact .rejected hcheck
  | opened v seed hinit => exact .opened v seed hinit
  | reopened v seed hreset => exact .reopened v seed hreset (by simp) rfl
  | updated data c hupd => simp [operation_of_payload hupd] at hi
  | finalized c hfin => simp [hfin, operation] at hi

/-- Settles O21: the repeated command leaves the engine of the first one. -/
theorem initAndResetAreIdempotent : Obligations.InitAndResetAreIdempotent := by
  intro i s t hi h
  obtain ⟨e, st, d, heffect, rfl⟩ := effect_of_exec h
  exact ⟨_, exec_of_effect (s := s.answer e st d) (heffect.repeats hi), rfl⟩

/-- Settles O32: the check passes, so the command reads the element and faults. -/
theorem readingAMissingValueFaults : Obligations.ReadingAMissingValueFaults := by
  refine ⟨fun i s hi hphase hmissing => ?_, fun seed s hphase hvar => ?_⟩
  · obtain ⟨f, hf⟩ := openComputation_missing s.engine hmissing
    have hpass (op : Operation) : phaseCheck op s.engine.phase = .ok :=
      phaseCheck_ok (.inr (.inl hphase))
    obtain ⟨v, seed, rfl⟩ | ⟨seed, rfl⟩ | ⟨data, hdata⟩ | rfl := instr_cases i
    · simp at hi
    · simp [operation] at hi
    · exact ⟨f, by rw [exec_update hdata, performUpdate, checked_pass (hpass _), hf]⟩
    · exact ⟨f, by rw [exec_finalize, performFinalize, checked_pass (hpass _), hf]⟩
  · rw [exec_reset, performReset, checked_pass ((phaseCheck_reset_eq_ok_iff _).mpr hphase), hvar]

end Sys2Proof.Machine
end

section
/-! The invariant of the engine state (10_state.md sections 3, 4, 7 and 8). -/

namespace Sys2Proof.Machine

/-- An open computation satisfies the invariant when CARRY has LEN mod B bytes. -/
theorem wf_of_open {e : Engine} {v : Variant} {hs : HashState} {len : U64} {carry : List Byte}
    (h : e.Open v hs len carry) (hcarry : carry.length = len.toNat % blockSize v) :
    e.wf = true := by
  obtain ⟨rfl, htag⟩ := h
  simp [Engine.wf, htag, hcarry, Nat.mod_lt _ (blockSize_pos v)]

theorem initState_open (v : Variant) (seed : U32) :
    (initState v seed).Open v (initWords v seed) 0 [] :=
  ⟨rfl, initWords_variant v seed⟩

/-- The computation that an UPDATE or FINALIZE reads. -/
theorem openComputation_of_open {e : Engine} {v : Variant} {hs : HashState} {len : U64}
    {carry : List Byte} (h : e.Open v hs len carry) :
    openComputation e = .ok { hs := hs, len := len, carry := carry } := by
  obtain ⟨rfl, rfl⟩ := h
  exact (openComputation_eq_ok _ _).mpr ⟨rfl, rfl, rfl, rfl⟩

/-- In phase ACTIVE, an engine whose computation can be read is that open computation. -/
theorem open_of_openComputation {e : Engine} {c : Computation} (hphase : e.phase = .active)
    (h : openComputation e = .ok c) : e.Open c.hs.variant c.hs c.len c.carry := by
  obtain ⟨phase, var, hs, len, carry⟩ := e
  obtain ⟨rfl, rfl, rfl, rfl⟩ := (openComputation_eq_ok _ _).mp h
  obtain rfl : phase = .active := hphase
  exact ⟨rfl, rfl⟩

/-- An UPDATE keeps the computation open, and its variant. -/
theorem updatedEngine_open {e : Engine} {v : Variant} {c : Computation} (data : List Byte)
    (h : e.Open v c.hs c.len c.carry) :
    (updatedEngine e c data).Open v (absorb c.hs (c.carry ++ data)).1
      (c.len + BitVec.ofNat 64 data.length) (absorb c.hs (c.carry ++ data)).2 := by
  obtain ⟨rfl, htag⟩ := h
  exact ⟨rfl, by rw [absorb_variant, htag]⟩

theorem blockSize_dvd (v : Variant) : blockSize v ∣ 2 ^ 64 := by
  cases v <;> decide

/-- LEN wraps at 2^64, a multiple of every block size, so `LEN mod B` grows like an exact count
(10_state.md R26, R28). -/
theorem len_add_mod_blockSize (v : Variant) (len : U64) (n : Nat) :
    (len + BitVec.ofNat 64 n).toNat % blockSize v =
      (len.toNat % blockSize v + n) % blockSize v := by
  rw [BitVec.toNat_add, BitVec.toNat_ofNat, Nat.add_mod_mod, Nat.mod_mod_of_dvd _ (blockSize_dvd v),
    Nat.mod_add_mod]

theorem updatedEngine_wf {e : Engine} {c : Computation} (data : List Byte) (hwf : e.wf = true)
    (hphase : e.phase = .active) (hopen : openComputation e = .ok c) :
    (updatedEngine e c data).wf = true := by
  have hcarry : c.carry.length = c.len.toNat % blockSize c.hs.variant := by
    obtain rfl | ⟨v, hs, len, carry, h, -, hmod⟩ | ⟨v, rfl⟩ := wf_cases hwf
    · cases hphase
    · rw [openComputation_of_open h] at hopen
      cases hopen
      rwa [h.2]
    · cases hphase
  refine wf_of_open (updatedEngine_open data (open_of_openComputation hphase hopen)) ?_
  rw [absorb_rest_length, List.length_append, hcarry, len_add_mod_blockSize]

/-- FINALIZE leaves only VAR, which holds a value in phase ACTIVE (10_state.md R34). -/
theorem finalizedEngine_wf {e : Engine} {c : Computation} (hphase : e.phase = .active)
    (hopen : openComputation e = .ok c) : (finalizedEngine e).wf = true := by
  obtain ⟨rfl, -⟩ := open_of_openComputation hphase hopen
  rfl

theorem Effect.keeps_wf {i : Instr} {e e' : Engine} {st : Status} {d : U128}
    (h : Effect i e e' st d) (hwf : e.wf = true) : e'.wf = true := by
  cases h with
  | rejected => exact hwf
  | opened v seed => exact wf_of_open (initState_open v seed) (by simp)
  | reopened v seed => exact wf_of_open (initState_open v seed) (by simp)
  | updated data c _ hphase hopen => exact updatedEngine_wf data hwf hphase hopen
  | finalized c _ hphase hopen => exact finalizedEngine_wf hphase hopen

/-- Settles O10: an idle step and an illegal word leave the engine as it is, and every effect of a
command keeps the invariant. -/
theorem everyStepKeepsTheInvariant : Obligations.EveryStepKeepsTheInvariant := by
  intro s t hinv h
  cases hc : s.commands with
  | nil =>
    rw [step_idle hc] at h
    cases h
    exact hinv
  | cons cmd rest =>
    obtain ⟨e, st, d, heffect, rfl⟩ := wordEffect_of_step hc h
    cases heffect with
    | illegal => exact hinv
    | command i _ heffect => exact heffect.keeps_wf hinv

/-- Settles O11: an idle step stays, and every word has an answer under the invariant. -/
theorem everyStepAnswersUnderTheInvariant : Obligations.EveryStepAnswersUnderTheInvariant := by
  intro s hinv
  cases hc : s.commands with
  | nil => exact ⟨s, step_idle hc⟩
  | cons cmd rest =>
    obtain ⟨e, st, d, h, -⟩ := step_answers hinv hc
    exact ⟨_, h⟩

/-- Settles O9: in phase UNCONFIGURED no element holds a value, by evaluation. -/
theorem powerOnStateSatisfiesTheInvariant : Obligations.PowerOnStateSatisfiesTheInvariant :=
  rfl

end Sys2Proof.Machine
end

section
/-! UPDATE and FINALIZE on an open computation: the exact next state (44_commands.md R188 to
R193). -/

namespace Sys2Proof.Machine

section

variable {s : State} {v : Variant} {hs : HashState} {len : U64} {carry data : List Byte}

theorem exec_update_of_open {i : Instr} (h : s.engine.Open v hs len carry)
    (hi : payload i = some data) :
    exec i s = .next (s.answer
      (updatedEngine s.engine { hs := hs, len := len, carry := carry } data) .ok 0) :=
  exec_of_effect (.updated data _ hi (by rw [h.1]) (openComputation_of_open h))

theorem exec_finalize_of_open (h : s.engine.Open v hs len carry) :
    exec .finalize s = .next (s.answer
      { phase := .finalized, var := some v, hs := none, len := none, carry := none } .ok
      (digestWord (digestOf { hs := hs, len := len, carry := carry }))) := by
  have hfin : finalizedEngine s.engine =
      { phase := .finalized, var := some v, hs := none, len := none, carry := none } := by
    rw [h.1]
    rfl
  rw [← hfin]
  exact exec_of_effect (.finalized _ rfl (by rw [h.1]) (openComputation_of_open h))

/-- A buffer with one full block and less than another is folded once. -/
theorem absorb_one_block {buf : List Byte} (htag : hs.variant = v)
    (hfull : blockSize v ≤ buf.length) (hshort : buf.length - blockSize v < blockSize v) :
    absorb hs buf = (blockFold hs (buf.take (blockSize v)), buf.drop (blockSize v)) := by
  subst htag
  rw [absorb_block hs buf hfull, absorb_short]
  rwa [blockFold_variant, List.length_drop]

end

/-- Settles O22: the loop of UPDATE stops at once on a buffer shorter than a block. -/
theorem updateBuffersAnIncompleteBlock : Obligations.UpdateBuffersAnIncompleteBlock := by
  intro s v hs len carry data i hopen hi hlt
  have habsorb : absorb hs (carry ++ data) = (hs, carry ++ data) :=
    absorb_short hs _ (by rwa [hopen.2, List.length_append])
  rw [exec_update_of_open hopen hi, updatedEngine, habsorb, hopen.1]
  rfl

/-- Settles O23: a payload has at most four bytes, no more than a block, so the loop folds one block
and what is left is shorter than another. -/
theorem updateFoldsExactlyOneCompletedBlock : Obligations.UpdateFoldsExactlyOneCompletedBlock := by
  intro s v hs len carry data i hopen hi hlt hfull
  have hdata : data.length ≤ blockSize v := by
    have hfour : 4 ≤ blockSize v := by cases v <;> decide
    exact (payload_length_le hi).trans hfour
  rw [← List.length_append] at hfull
  have habsorb := absorb_one_block hopen.2 hfull (by rw [List.length_append]; omega)
  rw [exec_update_of_open hopen hi, updatedEngine, habsorb, hopen.1]
  rfl

/-- Settles O24: the case of O22 with no bytes. -/
theorem updateOfNoBytesChangesNothing : Obligations.UpdateOfNoBytesChangesNothing := by
  intro s v hs len carry hopen hlt
  rw [updateBuffersAnIncompleteBlock s v hs len carry [] .update0 hopen rfl hlt, List.append_nil]
  simp [hopen.1]

/-! ## FINALIZE -/

/-- `LEN[31:0]`, in the two ways it is written. -/
theorem lowLength_eq (len : U64) : len.extractLsb' 0 32 = len.setWidth 32 :=
  (BitVec.setWidth_eq_extractLsb' (by decide)).symm

/-- Settles O25: the data is the final word, zero-extended. -/
theorem finalizeX86_32ReturnsTheDigest : Obligations.FinalizeX86_32ReturnsTheDigest := by
  intro s h1 len carry hopen
  rw [exec_finalize_of_open hopen]
  have hdata : digestWord (digestOf { hs := .x86_32 h1, len := len, carry := carry }) =
      (fmix32 (tail32 h1 carry ^^^ len.setWidth 32)).setWidth 128 := by
    rw [← lowLength_eq]
    exact digestWord_x86_32 _
  rw [hdata]
  rfl

theorem digestWord_x86_128 (h1 h2 h3 h4 : U32) :
    digestWord (bytesLe h1 ++ bytesLe h2 ++ bytesLe h3 ++ bytesLe h4) = h4 ++ h3 ++ h2 ++ h1 := by
  apply BitVec.eq_of_toNat_eq
  rw [digestWord_x86_128_toNat, append_toNat, append_toNat, append_toNat]
  omega

theorem digestWord_x64_128 (h1 h2 : U64) :
    digestWord (bytesLe h1 ++ bytesLe h2) = h2 ++ h1 := by
  apply BitVec.eq_of_toNat_eq
  rw [digestWord_x64_128_toNat, append_toNat]

/-- Settles O26: the data is the concatenation of the four final words. -/
theorem finalizeX86_128ReturnsTheDigest : Obligations.FinalizeX86_128ReturnsTheDigest := by
  intro s words len carry hopen
  rw [exec_finalize_of_open hopen]
  exact congrArg (fun d => Host.Outcome.next (s.answer _ .ok d)) (digestWord_x86_128 ..)

/-- Settles O27: the data is the concatenation of the two final words. -/
theorem finalizeX64_128ReturnsTheDigest : Obligations.FinalizeX64_128ReturnsTheDigest := by
  intro s words len carry hopen
  rw [exec_finalize_of_open hopen]
  exact congrArg (fun d => Host.Outcome.next (s.answer _ .ok d)) (digestWord_x64_128 ..)

end Sys2Proof.Machine
end

section
/-! The pseudo-instruction UPDATES (30_encoding.md R84). -/

namespace Sys2Proof.Machine

@[simp] theorem streamOf_nil : streamOf [] = [] := rfl

@[simp] theorem streamOf_cons (u : Instr) (us : List Instr) :
    streamOf (u :: us) = (payload u).getD [] ++ streamOf us := rfl

/-- UPDATES has an UPDATE for every four bytes begun. -/
theorem expandUpdates_length (b : List Byte) : (expandUpdates b).length = (b.length + 3) / 4 := by
  induction b using expandUpdates.induct with
  | case5 b0 b1 b2 b3 rest ih =>
    simp only [expandUpdates, List.length_cons, ih]
    omega
  | _ => simp [expandUpdates]

theorem streamOf_expandUpdates (b : List Byte) : streamOf (expandUpdates b) = b := by
  induction b using expandUpdates.induct with
  | case5 b0 b1 b2 b3 rest ih => simp [expandUpdates, payload, ih]
  | _ => rfl

theorem operation_of_mem_expandUpdates {b : List Byte} :
    ∀ u ∈ expandUpdates b, operation u = .update := by
  induction b using expandUpdates.induct with
  | case5 b0 b1 b2 b3 rest ih => simpa [expandUpdates, operation] using ih
  | _ => simp [expandUpdates, operation]

/-- UPDATE j of UPDATES carries the bytes from 4j on, at most four. -/
theorem expandUpdates_getElem? {b : List Byte} {j : Nat} (hj : 4 * j < b.length) :
    (expandUpdates b)[j]? = updateInstr (slice b (4 * j) 4) := by
  induction b using expandUpdates.induct generalizing j with
  | case5 b0 b1 b2 b3 rest ih =>
    cases j with
    | zero => rfl
    | succ j =>
      rw [List.length_cons, List.length_cons, List.length_cons, List.length_cons] at hj
      exact ih (by omega)
  | case1 => cases hj
  | _ =>
    obtain rfl : j = 0 := by simp at hj; omega
    rfl

/-- Settles O37: by recursion on the bytes, four at a time. -/
theorem updatesPseudoInstructionExpandsByFours :
    Obligations.UpdatesPseudoInstructionExpandsByFours :=
  fun b => ⟨expandUpdates_length b, fun j hj => expandUpdates_getElem? (by omega),
    streamOf_expandUpdates b⟩

end Sys2Proof.Machine
end

section
/-! The stream a computation has taken in, command by command and over runs of commands
(10_state.md section 4; 44_commands.md sections 4 and 6). -/

namespace Sys2Proof.Machine

/-! ## One command -/

theorem streamEngine_open (v : Variant) (seed : U32) (stream : List Byte) :
    (streamEngine v seed stream).Open v
      (foldStream (blockSize v) blockFold (initWords v seed) stream)
      (BitVec.ofNat 64 stream.length) (streamRest (blockSize v) stream) :=
  ⟨rfl, by rw [foldStream_variant, initWords_variant]⟩

/-- The loop of UPDATE goes on where the folds of the stream stopped, on the remainder that CARRY
holds. -/
theorem updatedEngine_streamEngine (v : Variant) (seed : U32) (stream data : List Byte) :
    updatedEngine (streamEngine v seed stream)
      { hs := foldStream (blockSize v) blockFold (initWords v seed) stream
        len := BitVec.ofNat 64 stream.length
        carry := streamRest (blockSize v) stream } data =
      streamEngine v seed (stream ++ data) := by
  have hpos := blockSize_pos v
  simp only [updatedEngine, streamEngine, absorb_eq_foldStream, foldStream_variant,
    initWords_variant]
  rw [← foldStream_append _ _ _ _ hpos, ← streamRest_append _ _ hpos, List.length_append,
    BitVec.ofNat_add]

theorem exec_update_streamEngine {s : State} {v : Variant} {seed : U32} {stream data : List Byte}
    {i : Instr} (hs : s.engine = streamEngine v seed stream) (hi : payload i = some data) :
    exec i s = .next (s.answer (streamEngine v seed (stream ++ data)) .ok 0) := by
  rw [exec_update_of_open (hs ▸ streamEngine_open v seed stream) hi, hs,
    updatedEngine_streamEngine]

/-- Settles O52: INIT and RESET leave the empty stream, UPDATE appends its payload, and a rejected
word leaves the engine. -/
theorem streamStateFollowsEveryCommand : Obligations.StreamStateFollowsEveryCommand := by
  intro s cmd rest hc
  refine ⟨fun v seed hd => ?_, fun v seed hd hphase hvar => ?_, fun v seed stream hs =>
    ⟨fun i data hd hi => ?_, fun hcheck => ?_⟩⟩
  · rw [streamEngine_nil]
    exact ⟨_, step_of_wordEffect hc (.command _ hd (.opened v seed rfl)), rfl⟩
  · rw [streamEngine_nil]
    exact ⟨_, step_of_wordEffect hc (.command _ hd (.reopened v seed rfl hphase hvar)), rfl⟩
  · exact ⟨_, (step_legal hc hd).trans (exec_update_streamEngine hs hi), rfl⟩
  · exact ⟨_, rejectedCommandChangesNoState s cmd rest hc hcheck, hs⟩

/-! ## Runs of commands -/

/-- An encoded command at the head of the channel is the next one performed. -/
theorem step_encode {s : State} {i : Instr} {rest : List CommandWord}
    (hc : s.commands = encode i :: rest) : step s = exec i (s.withCommands rest) :=
  step_legal hc (decodeOfEncodeIsIdentity i)

theorem exists_payload_of_operation {i : Instr} (h : operation i = .update) :
    ∃ data, payload i = some data := by
  cases i with
  | update0 | update1 | update2 | update3 | update4 => exact ⟨_, rfl⟩
  | _ => cases h

/-- `s` after `n` commands, each answered OK with data 0: the engine and the words they leave. -/
def State.afterOk (s : State) (e : Engine) (rest : List CommandWord) (n : Nat) : State :=
  { engine := e
    commands := rest
    responses := s.responses ++ List.replicate n { status := .ok, data := 0 } }

/-- One command answered OK, then `n` more. -/
theorem afterOk_answer (s : State) (e e' : Engine) (cs rest : List CommandWord) (n : Nat) :
    ((s.withCommands cs).answer e .ok 0).afterOk e' rest n = s.afterOk e' rest (n + 1) := by
  simp [State.afterOk, List.replicate_succ]

/-- UPDATEs from the state of a stream append their payloads to it, one after the other. -/
theorem runSteps_updates {us : List Instr} {s : State} {v : Variant} {seed : U32}
    {stream : List Byte} {rest : List CommandWord} (hus : ∀ u ∈ us, operation u = .update)
    (hs : s.engine = streamEngine v seed stream) (hc : s.commands = us.map encode ++ rest) :
    runSteps us.length s =
      .next (s.afterOk (streamEngine v seed (stream ++ streamOf us)) rest us.length) := by
  induction us generalizing s stream with
  | nil =>
    obtain ⟨engine, commands, responses⟩ := s
    obtain rfl : commands = rest := hc
    obtain rfl : engine = _ := hs
    simp [State.afterOk]
  | cons u us ih =>
    obtain ⟨hu, hus⟩ := List.forall_mem_cons.mp hus
    obtain ⟨data, hdata⟩ := exists_payload_of_operation hu
    have hstep := (step_encode hc).trans (exec_update_streamEngine hs hdata)
    rw [List.length_cons, runSteps_succ _ hstep, ih hus (answer_engine ..) rfl, afterOk_answer,
      streamOf_cons, hdata, List.append_assoc]
    rfl

/-- Settles O33: INIT leaves the state of the empty stream. -/
theorem updatesReachTheStreamState : Obligations.UpdatesReachTheStreamState := by
  intro s v seed updates rest hus hc
  have hc' : s.commands = encode (initInstr v seed) :: (updates.map encode ++ rest) := hc
  have hinit : step s = .next ((s.withCommands (updates.map encode ++ rest)).answer
      (streamEngine v seed []) .ok 0) := by
    rw [step_encode hc', exec_init, performInit_eq, streamEngine_nil]
  rw [runSteps_succ _ hinit, runSteps_updates hus rfl rfl, afterOk_answer]
  rfl

/-! ## The digest of a run -/

/-- Folding wrapped words is wrapping the folded words. -/
theorem foldStream_hom {α β : Type} (g : α → β) {b : Nat} {f : α → List Byte → α}
    {f' : β → List Byte → β} (hg : ∀ h blk, f' (g h) blk = g (f h blk)) (h : α)
    (t : List Byte) :
    foldStream b f' (g h) t = g (foldStream b f h t) :=
  List.foldl_hom g fun h j => hg h (streamBlock b t j)

/-- The digest of the computation on a stream is the reference hash of the stream. -/
theorem digestOf_stream (v : Variant) (seed : U32) (stream : List Byte) :
    digestOf { hs := foldStream (blockSize v) blockFold (initWords v seed) stream
               len := BitVec.ofNat 64 stream.length
               carry := streamRest (blockSize v) stream } = mh3 v stream seed := by
  cases v with
  | x86_32 =>
    rw [initWords, foldStream_hom HashState.x86_32 fun _ _ => rfl]
    rfl
  | x86_128 =>
    rw [initWords, foldStream_hom HashState.x86_128 fun _ _ => rfl]
    rfl
  | x64_128 =>
    rw [initWords, foldStream_hom HashState.x64_128 fun _ _ => rfl]
    rfl

theorem exec_finalize_streamEngine {s : State} {v : Variant} {seed : U32} {stream : List Byte}
    (hs : s.engine = streamEngine v seed stream) :
    exec .finalize s = .next (s.answer
      { phase := .finalized, var := some v, hs := none, len := none, carry := none } .ok
      (digestWord (mh3 v stream seed))) := by
  rw [exec_finalize_of_open (hs ▸ streamEngine_open v seed stream), digestOf_stream]

/-- Settles O34: the FINALIZE after the UPDATEs reads the computation on the whole stream. -/
theorem hashSequenceReturnsTheReferenceDigest :
    Obligations.HashSequenceReturnsTheReferenceDigest := by
  intro s v seed updates rest hus hc
  have hc' : s.commands = (initInstr v seed :: updates).map encode ++ encode .finalize :: rest := by
    simpa using hc
  rw [runSteps_add (updates.length + 1) 1 (updatesReachTheStreamState s v seed updates _ hus hc'),
    runSteps_succ 0 ((step_encode rfl).trans (exec_finalize_streamEngine rfl))]
  rfl

/-- Settles O35: each of the two runs returns the digest of the common stream. -/
theorem digestIsChunkInvariant : Obligations.DigestIsChunkInvariant := by
  intro s₁ s₂ v seed t us₁ us₂ rest₁ rest₂ hus₁ hus₂ ht₁ ht₂ hc₁ hc₂
  refine ⟨_, _, hashSequenceReturnsTheReferenceDigest s₁ v seed us₁ rest₁ hus₁ hc₁,
    hashSequenceReturnsTheReferenceDigest s₂ v seed us₂ rest₂ hus₂ hc₂, ?_, ?_⟩
  · rw [List.getLast?_concat, ht₁]
  · rw [List.getLast?_concat, List.getLast?_concat, ht₁, ht₂]

/-- Settles O36: HASH expands to INIT, the UPDATEs that carry its bytes, and FINALIZE. -/
theorem hashPseudoInstructionReturnsTheDigest :
    Obligations.HashPseudoInstructionReturnsTheDigest := by
  intro s v seed bytes rest hc
  have hrun := hashSequenceReturnsTheReferenceDigest s v seed (expandUpdates bytes) rest
    operation_of_mem_expandUpdates hc
  have hlength : (expandHash v seed bytes).length = (expandUpdates bytes).length + 2 := by
    simp [expandHash]
  rw [streamOf_expandUpdates, ← hlength] at hrun
  exact ⟨_, hrun, rfl, List.getLast?_concat⟩

end Sys2Proof.Machine
end

section
/-! The numbers of an assembler line (30_encoding.md R83). -/

namespace Sys2Proof.Machine

/-- A line with a seed as its one number gives `f seed` for a seed in range, and nothing else. -/
theorem seedLine_iff (n : Nat) (f : U32 → List Instr) (is : List Instr) :
    (if seedInRange n then some (f (BitVec.ofNat 32 n)) else none) = some is ↔
      n < 2 ^ 32 ∧ ∃ seed : U32, seed.toNat = n ∧ is = f seed := by
  rw [Option.ite_none_right_eq_some, seedInRange, decide_eq_true_iff]
  refine and_congr_right fun hn => ⟨?_, ?_⟩
  · rintro ⟨rfl⟩
    exact ⟨BitVec.ofNat 32 n, by rw [BitVec.toNat_ofNat, Nat.mod_eq_of_lt hn], rfl⟩
  · rintro ⟨seed, rfl, rfl⟩
    rw [BitVec.ofNat_toNat, BitVec.setWidth_eq]

theorem updateOperandsInRange_iff (bytes : List Nat) :
    updateOperandsInRange bytes = true ↔ bytes.length ≤ 4 ∧ ∀ b ∈ bytes, b < 256 := by
  simp [updateOperandsInRange]

theorem updateInstr_eq_some_iff (data : List Byte) (i : Instr) :
    updateInstr data = some i ↔ payload i = some data :=
  ⟨payload_of_updateInstr, updateInstr_of_payload⟩

/-- Numbers in the range of a byte are the values of the bytes they are stored in. -/
theorem map_ofNat_eq_iff {bytes : List Nat} (h : ∀ b ∈ bytes, b < 256) (data : List Byte) :
    bytes.map (BitVec.ofNat 8) = data ↔ data.map BitVec.toNat = bytes := by
  constructor
  · rintro rfl
    rw [List.map_map]
    refine (List.map_congr_left fun b hb => ?_).trans (List.map_id bytes)
    exact Nat.mod_eq_of_lt (h b hb)
  · rintro rfl
    simp [Function.comp_def]

theorem assembleLine_update_iff (bytes : List Nat) (is : List Instr) :
    assembleLine (.update bytes) = some is ↔
      bytes.length ≤ 4 ∧ (∀ b ∈ bytes, b < 256) ∧
        ∃ (i : Instr) (data : List Byte), is = [i] ∧ payload i = some data ∧
          data.map BitVec.toNat = bytes := by
  rw [assembleLine, Option.ite_none_right_eq_some, SourceLine.wellFormed,
    updateOperandsInRange_iff, and_assoc]
  refine and_congr_right fun _ => and_congr_right fun hrange => ?_
  simp only [Option.map_eq_some_iff, updateInstr_eq_some_iff]
  constructor
  · rintro ⟨i, hi, rfl⟩
    exact ⟨i, _, rfl, hi, (map_ofNat_eq_iff hrange _).mp rfl⟩
  · rintro ⟨i, data, rfl, hi, hdata⟩
    exact ⟨i, (map_ofNat_eq_iff hrange data).mpr hdata ▸ hi, rfl⟩

/-- Settles O38: a seed or byte in range is the value of the operand it becomes, and a line with no
number is always accepted. -/
theorem assemblerAcceptsExactlyNumbersInRange :
    Obligations.AssemblerAcceptsExactlyNumbersInRange :=
  ⟨fun v n is => seedLine_iff n (fun seed => [initInstr v seed]) is,
    fun n is => seedLine_iff n (fun seed => [.reset seed]) is,
    assembleLine_update_iff,
    fun _ => Option.some_inj.trans eq_comm,
    fun _ _ => Option.some_inj.trans eq_comm,
    fun v n bytes is => seedLine_iff n (fun seed => expandHash v seed bytes) is⟩

end Sys2Proof.Machine
end

section
/-! The rotates, and that the mixes built from rotates, odd factors and xor-shifts are bijections
(40_primitives.md R100 to R103; 41_x86_32.md R121; 42_x86_128.md R141; 43_x64_128.md R161, R162). -/

namespace Sys2Proof.Machine

open Function

/-! ## Rotates -/

theorem rotl32_eq (x : U32) (r : Fin 32) : rotl32 x r = x.rotateLeft r.val := by
  rw [BitVec.rotateLeft_eq_rotateLeftAux_of_lt r.isLt, rotl32]
  split
  case isTrue h => simp [h, BitVec.rotateLeftAux, BitVec.ushiftRight_eq_zero]
  case isFalse => rfl

theorem rotl64_eq (x : U64) (r : Fin 64) : rotl64 x r = x.rotateLeft r.val := by
  rw [BitVec.rotateLeft_eq_rotateLeftAux_of_lt r.isLt, rotl64]
  split
  case isTrue h => simp [h, BitVec.rotateLeftAux, BitVec.ushiftRight_eq_zero]
  case isFalse => rfl

section

variable {w : Nat}

/-- A rotate moves bit i to bit i + r, wrapped at the width. -/
theorem getLsbD_rotateLeft_add (x : BitVec w) {r i : Nat} (hr : r < w) (hi : i < w) :
    (x.rotateLeft r).getLsbD ((i + r) % w) = x.getLsbD i := by
  rw [BitVec.getLsbD_rotateLeft, Nat.mod_eq_of_lt hr]
  by_cases hwrap : i + r < w
  · simp [Nat.mod_eq_of_lt hwrap, hwrap]
  · have hmod : (i + r) % w = i + r - w := by
      rw [Nat.mod_eq_sub_mod (by omega), Nat.mod_eq_of_lt (by omega)]
    have hback : w - r + (i + r - w) = i := by omega
    simp [hmod, show i + r - w < r by omega, hback]

/-! ## The steps of a mix -/

theorem rotateLeft_injective {r : Nat} (hr : r < w) :
    Injective fun x : BitVec w => x.rotateLeft r := by
  intro x y h
  refine BitVec.eq_of_getLsbD_eq fun i hi => ?_
  rw [← getLsbD_rotateLeft_add x hr hi, ← getLsbD_rotateLeft_add y hr hi]
  exact congrArg (·.getLsbD ((i + r) % w)) h

/-- An odd factor can be cancelled modulo `2^w`. -/
theorem mul_odd_injective {c : BitVec w} (hc : c.toNat % 2 = 1) : Injective fun x => x * c := by
  intro x y h
  have hcop : Nat.gcd (2 ^ w) c.toNat = 1 :=
    Nat.Coprime.pow_left w (Nat.coprime_two_left.mpr (Nat.odd_iff.mpr hc))
  have hmod : x.toNat * c.toNat ≡ y.toNat * c.toNat [MOD 2 ^ w] := by
    simpa [Nat.ModEq] using congrArg BitVec.toNat h
  have hcancel := Nat.ModEq.cancel_right_of_coprime hcop hmod
  exact BitVec.eq_of_toNat_eq (hcancel.eq_of_lt_of_lt x.isLt y.isLt)

/-- `x ^ (x >> k)`, the step between the multiplications of the finalizers (R102, R103). -/
def xorShift (k : Nat) (x : BitVec w) : BitVec w :=
  x ^^^ (x >>> k)

/-- The xor of two words with the same image is its own shift, and only 0 is that. -/
theorem xorShift_injective {k : Nat} (hk : 0 < k) : Injective (xorShift (w := w) k) := by
  intro x y h
  have hfix : x ^^^ y = (x ^^^ y) >>> k := by
    have hsum : (x ^^^ x >>> k) ^^^ (y ^^^ y >>> k) = 0#w := BitVec.xor_eq_zero_iff.mpr h
    rw [BitVec.ushiftRight_xor_distrib, ← BitVec.xor_eq_zero_iff, ← hsum]
    ac_rfl
  have hdiv : (x ^^^ y).toNat = (x ^^^ y).toNat / 2 ^ k := by
    rw [← Nat.shiftRight_eq_div_pow, ← BitVec.toNat_ushiftRight, ← hfix]
  have hzero : (x ^^^ y).toNat = 0 := by
    by_contra hne
    have hlt := Nat.div_lt_self (Nat.pos_of_ne_zero hne) (Nat.one_lt_two_pow (by omega : k ≠ 0))
    omega
  exact BitVec.xor_eq_zero_iff.mp (BitVec.eq_of_toNat_eq hzero)

/-- An input-word mix: an odd factor, a rotate, another odd factor. -/
theorem mulRotateMul_injective {c d : BitVec w} {r : Nat} (hc : c.toNat % 2 = 1) (hr : r < w)
    (hd : d.toNat % 2 = 1) : Injective fun k => (k * c).rotateLeft r * d :=
  (mul_odd_injective hd).comp ((rotateLeft_injective hr).comp (mul_odd_injective hc))

/-- A finalizer: xor-shifts with odd factors between them. -/
theorem xorShiftMul_injective {c d : BitVec w} {k l m : Nat} (hk : 0 < k) (hc : c.toNat % 2 = 1)
    (hl : 0 < l) (hd : d.toNat % 2 = 1) (hm : 0 < m) :
    Injective fun h => xorShift m (xorShift l (xorShift k h * c) * d) :=
  (xorShift_injective hm).comp ((mul_odd_injective hd).comp ((xorShift_injective hl).comp
    ((mul_odd_injective hc).comp (xorShift_injective hk))))

end

/-! ## The mixes of the variants -/

/-- Settles O39: the rotates are the library's at a fixed width. -/
theorem rotatesMoveEveryBit : Obligations.RotatesMoveEveryBit :=
  ⟨fun x r _ hi => by rw [rotl32_eq, getLsbD_rotateLeft_add x r.isLt hi],
    fun x r _ hi => by rw [rotl64_eq, getLsbD_rotateLeft_add x r.isLt hi]⟩

theorem fmix32_eq (h : U32) :
    fmix32 h = xorShift 16 (xorShift 13 (xorShift 16 h * 0x85ebca6b) * 0xc2b2ae35) := rfl

theorem fmix64_eq (h : U64) : fmix64 h =
    xorShift 33 (xorShift 33 (xorShift 33 h * 0xff51afd7ed558ccd) * 0xc4ceb9fe1a85ec53) := rfl

theorem fmix32_injective : Injective fmix32 := by
  rw [funext fmix32_eq]
  exact xorShiftMul_injective (by decide) (by decide) (by decide) (by decide) (by decide)

theorem fmix64_injective : Injective fmix64 := by
  rw [funext fmix64_eq]
  exact xorShiftMul_injective (by decide) (by decide) (by decide) (by decide) (by decide)

/-- Settles O40: an injection of a finite type is a bijection, and 0 is the preimage of 0. -/
theorem fmix32IsABijection : Obligations.Fmix32IsABijection :=
  ⟨Finite.injective_iff_bijective.mp fmix32_injective, fun _ => fmix32_injective.eq_iff' rfl⟩

/-- Settles O41: as O40. -/
theorem fmix64IsABijection : Obligations.Fmix64IsABijection :=
  ⟨Finite.injective_iff_bijective.mp fmix64_injective, fun _ => fmix64_injective.eq_iff' rfl⟩

theorem mixk32_injective : Injective mixk32 := by
  unfold mixk32
  simp only [rotl32_eq]
  exact mulRotateMul_injective (by decide) (by decide) (by decide)

theorem c128_odd : ∀ i, (c128 i).toNat % 2 = 1 := by decide

theorem mixk128_injective (i : Fin 4) : Injective (mixk128 i) := by
  unfold mixk128
  simp only [rotl32_eq]
  exact mulRotateMul_injective (c128_odd i) (r128 i).isLt (c128_odd (i + 1))

theorem mixk1X64_injective : Injective mixk1X64 := by
  unfold mixk1X64
  simp only [rotl64_eq]
  exact mulRotateMul_injective (by decide) (by decide) (by decide)

theorem mixk2X64_injective : Injective mixk2X64 := by
  unfold mixk2X64
  simp only [rotl64_eq]
  exact mulRotateMul_injective (by decide) (by decide) (by decide)

@[simp] theorem mixk32_zero : mixk32 0#32 = 0#32 := by decide

@[simp] theorem mixk128_zero : ∀ i, mixk128 i 0#32 = 0#32 := by decide

@[simp] theorem mixk1X64_zero : mixk1X64 0#64 = 0#64 := by decide

@[simp] theorem mixk2X64_zero : mixk2X64 0#64 = 0#64 := by decide

/-- Settles O42: all the constants are odd. -/
theorem inputMixesAreBijections : Obligations.InputMixesAreBijections :=
  ⟨⟨Finite.injective_iff_bijective.mp mixk32_injective, mixk32_zero⟩,
    fun i => ⟨Finite.injective_iff_bijective.mp (mixk128_injective i), mixk128_zero i⟩,
    ⟨Finite.injective_iff_bijective.mp mixk1X64_injective, mixk1X64_zero⟩,
    ⟨Finite.injective_iff_bijective.mp mixk2X64_injective, mixk2X64_zero⟩⟩

end Sys2Proof.Machine
end

section
/-! The tail folds, the block fold of X86_128, little-endian words and the final mixes
(00_scope.md R14; 41_x86_32.md R123, R125; 42_x86_128.md R140 to R145; 43_x64_128.md R164). -/

namespace Sys2Proof.Machine

/-! ## Little-endian words -/

/-- Each byte weighs 256 times the one before it (R14). -/
theorem leNat_eq_sum (b : List Byte) : leNat b =
    ((List.range b.length).map fun m => (b.getD m 0).toNat * 2 ^ (8 * m)).sum := by
  induction b with
  | nil => rfl
  | cons x xs ih =>
    have hweight (m : Nat) : (xs.getD m 0).toNat * 2 ^ (8 * (m + 1)) =
        256 * ((xs.getD m 0).toNat * 2 ^ (8 * m)) := by
      rw [Nat.mul_succ, Nat.pow_add]
      ring
    rw [leNat_cons, ih, List.length_cons, List.range_succ_eq_map, List.map_cons, List.sum_cons,
      List.map_map, ← List.sum_map_mul_left, ← funext hweight]
    simp [Function.comp_def]

theorem le_bytesLe {w : Nat} (hw : 8 ∣ w) (v : BitVec w) : le w (bytesLe v) = v := by
  rw [le, leNat_bytesLe hw, BitVec.ofNat_toNat, BitVec.setWidth_eq]

theorem bytesLe_le {w : Nat} {b : List Byte} (hw : w = 8 * b.length) : bytesLe (le w b) = b := by
  subst hw
  rw [bytesLe, Nat.mul_div_cancel_left _ (by decide)]
  exact firstBytes_le (Nat.le_refl _)

/-- Settles O48: the sum by induction on the bytes, and the inverse byte by byte. -/
theorem littleEndianAssemblyIsTheSum : Obligations.LittleEndianAssemblyIsTheSum :=
  ⟨leNat_eq_sum, fun v => le_bytesLe (by decide) v, fun v => le_bytesLe (by decide) v,
    fun _ h => bytesLe_le (by omega), fun _ h => bytesLe_le (by omega)⟩

/-! ## Tail folds -/

/-- Zero bytes make the zero word. -/
theorem le_eq_zero {w : Nat} {b : List Byte} (h : ∀ x ∈ b, x = 0) : le w b = 0 := by
  have hzero : leNat b = 0 := by
    induction b with
    | nil => rfl
    | cons x xs ih =>
      obtain ⟨rfl, hxs⟩ := List.forall_mem_cons.mp h
      simp [ih hxs]
  rw [le, hzero]
  rfl

theorem mem_of_mem_slice {b : List Byte} {o n : Nat} {x : Byte} (h : x ∈ slice b o n) : x ∈ b :=
  List.mem_of_mem_drop (List.mem_of_mem_take h)

theorem le_slice_beyond (w : Nat) {b : List Byte} {o : Nat} (n : Nat) (h : b.length ≤ o) :
    le w (slice b o n) = 0#w := by
  rw [slice, List.drop_eq_nil_of_le h, List.take_nil]
  rfl

/-- A guard does not show where the word it keeps out is 0. -/
theorem ite_xor_eq {w : Nat} {p : Prop} [Decidable p] (h : BitVec w) {k : BitVec w}
    (hk : ¬ p → k = 0#w) : (if p then h ^^^ k else h) = h ^^^ k := by
  split
  case isTrue => rfl
  case isFalse hp => rw [hk hp, BitVec.xor_zero]

theorem tail32_eq (h1 : U32) (t : List Byte) : tail32 h1 t = h1 ^^^ mixk32 (le 32 t) := by
  refine ite_xor_eq h1 fun hempty => ?_
  obtain rfl : t = [] := by simpa using hempty
  exact mixk32_zero

theorem tailWord128_eq (i : Fin 4) (h : U32) (t : List Byte) :
    tailWord128 i h t = h ^^^ mixk128 i (tailInput128 i t) :=
  ite_xor_eq h fun hshort => by
    rw [tailInput128, le_slice_beyond 32 4 (by omega), mixk128_zero]

theorem tailX86_128_eq (h : X86Words) (t : List Byte) : tailX86_128 h t =
    { h1 := h.h1 ^^^ mixk128 0 (tailInput128 0 t), h2 := h.h2 ^^^ mixk128 1 (tailInput128 1 t),
      h3 := h.h3 ^^^ mixk128 2 (tailInput128 2 t),
      h4 := h.h4 ^^^ mixk128 3 (tailInput128 3 t) } := by
  simp only [tailX86_128, tailWord128_eq]

theorem tailX64_128_eq (h : X64Words) (t : List Byte) : tailX64_128 h t =
    { h1 := h.h1 ^^^ mixk1X64 (tailInput1X64 t), h2 := h.h2 ^^^ mixk2X64 (tailInput2X64 t) } := by
  have hmix1 : ¬ 0 < t.length → mixk1X64 (tailInput1X64 t) = 0#64 := fun hshort => by
    rw [tailInput1X64, le_slice_beyond 64 8 (by omega), mixk1X64_zero]
  have hmix2 : ¬ 8 < t.length → mixk2X64 (tailInput2X64 t) = 0#64 := fun hshort => by
    rw [tailInput2X64, le_slice_beyond 64 8 (by omega), mixk2X64_zero]
  rw [tailX64_128, ite_xor_eq _ hmix1, ite_xor_eq _ hmix2]

/-- Settles O45: a word that gets no byte is 0, and its mix is 0. -/
theorem tailFoldsNeedNoGuards : Obligations.TailFoldsNeedNoGuards :=
  ⟨tailX86_128_eq, tailX64_128_eq⟩

/-- Settles O44: every input word of a zero tail is 0, and its mix is 0. -/
theorem zeroTailLeavesTheWordsUnchanged : Obligations.ZeroTailLeavesTheWordsUnchanged := by
  intro hs t ht
  have hslice (w o n : Nat) : le w (slice t o n) = 0 :=
    le_eq_zero fun x hx => ht x (mem_of_mem_slice hx)
  cases hs with
  | x86_32 h1 => simp [tailFold, tail32_eq, le_eq_zero ht]
  | x86_128 h => simp [tailFold, tailX86_128_eq, tailInput128, hslice]
  | x64_128 h => simp [tailFold, tailX64_128_eq, tailInput1X64, tailInput2X64, hslice]

/-! ## Block fold and final mixes -/

/-- Settles O43: the loop's four rounds unfold to the four lines of the fold. -/
theorem blockFoldX86_128IsTheSequentialLoop : Obligations.BlockFoldX86_128IsTheSequentialLoop :=
  fun _ _ => rfl

/-- Settles O50: both final mixes take LEN through its low 32 bits. -/
theorem onlyLowLengthBitsEnterThe32BitMixes : Obligations.OnlyLowLengthBitsEnterThe32BitMixes := by
  intro len₁ len₂ h
  have hlow : len₁.extractLsb' 0 32 = len₂.extractLsb' 0 32 := by
    rw [lowLength_eq, lowLength_eq]
    exact BitVec.eq_of_toNat_eq (by simpa using h)
  exact ⟨fun h1 => by rw [final32, finalWord32, hlow]; rfl,
    fun h => by rw [finalX86_128, finalWordsX86_128, hlow]; rfl⟩

/-- Settles O51: by evaluation, variant by variant. -/
theorem emptyStreamSeedZeroDigestIsZero : Obligations.EmptyStreamSeedZeroDigestIsZero := by
  intro v
  cases v <;> decide

end Sys2Proof.Machine
end
